-- ==== Sys2Proof/Word.lean ====
section
/-! DEFINITION. The word types of the engine (00_scope.md R12: a byte and a word are both 8 bits, a nibble is 4) and
the two closed enumerations that operands range over. -/

namespace Sys2Proof

/-- One pin level or one serial bit. -/
abbrev Bit := BitVec 1

/-- Four lane levels, bit `L` being lane `L` (R64, R69). -/
abbrev Nibble := BitVec 4

/-- The transfer word: 8 bits, the only width (R21, R71). -/
abbrev Byte := BitVec 8

/-- A host command word (R91): `opc` in bits 39..32, `arg` in bits 31..0. -/
abbrev CmdWord := BitVec 40

/-- The shared direction of the four lanes (R33): `IN` = 0, `OUT` = 1. -/
inductive Dir where
  | inp
  | out
deriving DecidableEq, Repr

/-- Which nibble of `RX` a lane sample fills (R133): low = 0, high = 1. -/
inductive Half where
  | low
  | high
deriving DecidableEq, Repr

/-- The bits of one instruction: a 40-bit command word (R91) or an 8-bit micro-op code (R102). -/
inductive Code where
  | cmd (w : CmdWord)
  | uop (u : Byte)
deriving DecidableEq, Repr

end Sys2Proof
end

