-- ==== Sys2Proof/Syntax.lean ====
section
/-! DEFINITION. The instructions: the five host commands (00_scope.md R3) and the eight micro-ops of the sequencer
(30_encoding.md R103), one constructor per row of spec/opcode_table.json. -/

namespace Sys2Proof

/-- An instruction of the engine. Operand widths are those of the encoding (R92 to R97, R103). -/
inductive Instr where
  /-- `CFGFMT bits, mode` (R92, R150). -/
  | cfgfmt (bits : Byte) (mode : BitVec 2)
  /-- `CFGFREQ hz` (R93, R151). -/
  | cfgfreq (hz : BitVec 32)
  /-- `XFER value` (R94, R160). -/
  | xfer (value : Byte)
  /-- `QWR value` (R95, R170). -/
  | qwr (value : Byte)
  /-- `QRD` (R96, R173). -/
  | qrd
  /-- `U_WAIT` (R129). -/
  | uWait
  /-- `U_DRIVE_MOSI b` (R126). -/
  | uDriveMosi (b : Bit)
  /-- `U_SAMPLE_MISO i`, `i` the bit position 0..7 (R127). -/
  | uSampleMiso (i : BitVec 3)
  /-- `U_TOGGLE_SCK` (R128). -/
  | uToggleSck
  /-- `U_SET_SCK b` (R130). -/
  | uSetSck (b : Bit)
  /-- `U_QDIR d` (R131). -/
  | uQdir (d : Dir)
  /-- `U_DRIVEQ n`, bit `L` of `n` for lane `L` (R132). -/
  | uDriveq (n : Nibble)
  /-- `U_SAMPLEQ h` (R133). -/
  | uSampleq (h : Half)
deriving DecidableEq, Repr

end Sys2Proof
end

