-- ==== Sys2Proof/WellFormed.lean ====
section
/-! DEFINITION. Which instructions are within the caller's contract by their operands alone. The operand widths are in
the types, so every term has an encoding; what is left to check is the operand-value rule of 60_exceptions.md R207
step 2: `CFGFMT` takes only the width 8 (R150) and `CFGFREQ` only a frequency above 0 (R151). An ill-formed command
still decodes and still has its meaning: it faults (R203, R204; log entry 20). -/

namespace Sys2Proof

/-- The operand-value checks of R207 step 2, as a Bool. -/
def Instr.wellFormed : Instr → Bool
  | .cfgfmt bits _ => bits == 8#8
  | .cfgfreq hz => hz != 0#32
  | .xfer _ => true
  | .qwr _ => true
  | .qrd => true
  | .uWait => true
  | .uDriveMosi _ => true
  | .uSampleMiso _ => true
  | .uToggleSck => true
  | .uSetSck _ => true
  | .uQdir _ => true
  | .uDriveq _ => true
  | .uSampleq _ => true

end Sys2Proof
end

