-- ==== Sys2Proof/Decode.lean ====
section
/-! DEFINITION. Decoding of command words (30_encoding.md R106) and of micro-op codes (R103), total on every word and
rejecting by name, and the encoder written from the same tables (R92 to R96, R103). -/

namespace Sys2Proof

/-- Why a word is no instruction. The machine turns either of the first two into the fault `IllegalCommand` (R202). -/
inductive Reject where
  /-- The opcode is not one of the five (R99). -/
  | unassignedOpcode (opc : Byte)
  /-- A reserved bit of an assigned opcode is 1 (R98). -/
  | reservedBits (opc : Byte)
  /-- The 8-bit value is not a micro-op code (R103). -/
  | notMicroOp (code : Byte)
deriving DecidableEq, Repr

/-- `opc = cmd[39:32]` (R91). -/
def opcodeField (w : CmdWord) : Byte := w.extractLsb' 32 8

/-- `arg = cmd[31:0]` (R91). -/
def argField (w : CmdWord) : BitVec 32 := w.extractLsb' 0 32

/-- The instruction `i` if the reserved field is 0, else the rejection of R98. -/
def whenReservedZero (reservedIsZero : Bool) (opc : Byte) (i : Instr) : Except Reject Instr :=
  if reservedIsZero then .ok i else .error (.reservedBits opc)

/-- The decoding procedure of R106 with the operands of R97. -/
def decodeCmd (w : CmdWord) : Except Reject Instr :=
  let opc := opcodeField w
  let arg := argField w
  if opc = 0x10#8 then
    whenReservedZero (arg.extractLsb' 10 22 == 0#22) opc (.cfgfmt (arg.extractLsb' 0 8) (arg.extractLsb' 8 2))
  else if opc = 0x11#8 then
    .ok (.cfgfreq arg)
  else if opc = 0x20#8 then
    whenReservedZero (arg.extractLsb' 8 24 == 0#24) opc (.xfer (arg.extractLsb' 0 8))
  else if opc = 0x21#8 then
    whenReservedZero (arg.extractLsb' 8 24 == 0#24) opc (.qwr (arg.extractLsb' 0 8))
  else if opc = 0x22#8 then
    whenReservedZero (arg == 0#32) opc .qrd
  else
    .error (.unassignedOpcode opc)

/-- The direction a code bit stands for (R103: 0 `IN`, 1 `OUT`). -/
def dirOfBit (b : Bit) : Dir := if b = 0#1 then .inp else .out

/-- The code bit of a direction. -/
def bitOfDir : Dir → Bit
  | .inp => 0#1
  | .out => 1#1

/-- The nibble a code bit stands for (R103: 0 low, 1 high). -/
def halfOfBit (b : Bit) : Half := if b = 0#1 then .low else .high

/-- The code bit of a nibble position. -/
def bitOfHalf : Half → Bit
  | .low => 0#1
  | .high => 1#1

/-- The micro-op of an 8-bit code, by the patterns of R103 (`u[7:4]` the kind, `u[3:0]` the argument). -/
def decodeUop (u : Byte) : Except Reject Instr :=
  if u = 0x00#8 then .ok .uWait
  else if u.extractLsb' 1 7 = 0b0001000#7 then .ok (.uDriveMosi (u.extractLsb' 0 1))
  else if u.extractLsb' 3 5 = 0b00100#5 then .ok (.uSampleMiso (u.extractLsb' 0 3))
  else if u = 0x30#8 then .ok .uToggleSck
  else if u.extractLsb' 1 7 = 0b0100000#7 then .ok (.uSetSck (u.extractLsb' 0 1))
  else if u.extractLsb' 1 7 = 0b0101000#7 then .ok (.uQdir (dirOfBit (u.extractLsb' 0 1)))
  else if u.extractLsb' 4 4 = 0b0110#4 then .ok (.uDriveq (u.extractLsb' 0 4))
  else if u.extractLsb' 1 7 = 0b0111000#7 then .ok (.uSampleq (halfOfBit (u.extractLsb' 0 1)))
  else .error (.notMicroOp u)

/-- The decoder: command words by R106, micro-op codes by R103. -/
def decode : Code → Except Reject Instr
  | .cmd w => decodeCmd w
  | .uop u => decodeUop u

/-- The encoder, field by field from R92 to R96 and R103, most significant field first. -/
def encode : Instr → Code
  | .cfgfmt bits mode => .cmd (0x10#8 ++ 0#22 ++ mode ++ bits)
  | .cfgfreq hz => .cmd (0x11#8 ++ hz)
  | .xfer value => .cmd (0x20#8 ++ 0#24 ++ value)
  | .qwr value => .cmd (0x21#8 ++ 0#24 ++ value)
  | .qrd => .cmd (0x22#8 ++ 0#32)
  | .uWait => .uop 0b00000000#8
  | .uDriveMosi b => .uop (0b0001000#7 ++ b)
  | .uSampleMiso i => .uop (0b00100#5 ++ i)
  | .uToggleSck => .uop 0b00110000#8
  | .uSetSck b => .uop (0b0100000#7 ++ b)
  | .uQdir d => .uop (0b0101000#7 ++ bitOfDir d)
  | .uDriveq n => .uop (0b0110#4 ++ n)
  | .uSampleq h => .uop (0b0111000#7 ++ bitOfHalf h)

/-- The 40-bit word of a command, which `Accept` and a fault record carry (R121, R208). A micro-op is never presented
on the command port (R102); its code stands here zero-extended only so that the function is total. -/
def commandWord (i : Instr) : CmdWord :=
  match encode i with
  | .cmd w => w
  | .uop u => u.setWidth 40

/-- The bits of a row of spec/opcode_table.json, which numbers a command word and a micro-op code as one number with
bit 0 the least significant: rows of at most 8 bits are micro-op codes, all others command words. -/
def tableCode (nbits w : Nat) : Code :=
  if nbits ≤ 8 then .uop (BitVec.ofNat 8 w) else .cmd (BitVec.ofNat 40 w)

/-- What the decoder reads from an instruction whose bits are `w`, numbered as the opcode table numbers them. -/
def decodeTableWord (nbits w : Nat) : Option Instr :=
  match decode (tableCode nbits w) with
  | .ok i => some i
  | .error _ => none

end Sys2Proof
end

