-- ==== Sys2Proof/Machine/Event.lean ====
section
/-! DEFINITION. The fault codes (60_exceptions.md R219) and the events of the observable trace (40_sequencer_uops.md R134). -/

namespace Sys2Proof.Machine

/-- `FAULT.CODE`: none, or one of the four faults (R36, R219). The codes 5 to 7 never occur. -/
inductive FaultCode where
  | noFault
  | illegalCommand
  | widthUnsupported
  | freqZero
  | notConfigured
deriving DecidableEq, Repr

/-- The value the environment returned to a sampling micro-op; nothing for the others (R122). -/
inductive Sample where
  | nothing
  | bit (b : Bit)
  | nibble (n : Nibble)
deriving DecidableEq, Repr

/-- An event of the observable trace (R134). A micro-op stands as its constructor, not as its 8-bit code, as R102
allows (log entry 15). -/
inductive Event where
  /-- `Accept(cmd)` (R121). -/
  | accept (cmd : CmdWord)
  /-- `Uop(u, s)` (R122). -/
  | uop (u : Instr) (s : Sample)
  /-- `Done(rsp?)` (R123). -/
  | done (rsp : Option Byte)
  /-- `Fault(code, cmd)` (R208). -/
  | fault (code : FaultCode) (cmd : CmdWord)
deriving DecidableEq, Repr

/-- The event history of the block: the trace since reset first, then the traces before each earlier reset, each with
its newest event first (log entry 8). -/
abbrev History := List (List Event)

end Sys2Proof.Machine
end

