-- ==== Sys2Proof/Config.lean ====
section
/-! DEFINITION. What the spec leaves to the environment or to the implementation. Every constant here is opaque: it has
no body, nothing can compute it, and a statement that mentions it holds for every value it could have. -/

namespace Sys2Proof.Config

open Sys2Proof.Machine

/-- FREE VALUE (log entry 4). The level an unconstrained environment gives a `PinRead(MISO)`: any bit, depending on the
whole history of events so far and on nothing inside the engine (20_memory.md R63, R66). -/
opaque misoDraw : History → Bit

/-- FREE VALUE (log entry 4). The four lane levels an unconstrained environment gives a `PinReadQ()` (R64, R66). -/
opaque lanesDraw : History → Nibble

/-- FREE VALUE (log entry 2). The level the `SCK` latch shows from a reset until it is first written; the argument is
the history before that reset (10_state.md R30, R38). -/
opaque undefSck : History → Bit

/-- FREE VALUE (log entry 2). The level the `MOSI` latch shows from a reset until it is first written (R31, R38). -/
opaque undefMosi : History → Bit

/-- FREE VALUE (log entry 2). The levels the `QOUT` latches show from a reset until they are first written (R32, R38). -/
opaque undefQout : History → Nibble

/-- FREE VALUE (log entry 3). What the `fault_cmd` port shows while no fault has been recorded (R36, R45). -/
opaque undefFaultCmd : History → CmdWord

/-- OPEN PARAMETER `CLK_SYS`, in hertz (00_scope.md R10, 70_reset_and_hazards.md R252). The spec asks only that it is
positive and finite; a whole number of hertz is the model's own (DESIGN CHOICE, log entry 25). No step depends on it. -/
opaque clkSys : ℕ+

/-- OPEN PARAMETER `UOP_CYCLES` (R10, R252): positive and finite; a whole number of cycles is the model's own (DESIGN
CHOICE, log entry 25). No step depends on it. -/
opaque uopCycles : ℕ+

/-- OPEN PARAMETER `HZ_MAX`, in hertz: the highest frequency whose wait is honoured (R10, R151). A whole number of hertz
is the model's own (DESIGN CHOICE, log entry 25). No step depends on it. -/
opaque hzMax : ℕ

/-- OPEN PARAMETER `CS_ACTIVE_LEVEL`: the level that asserts chip-select, outside the block (R10, R190). -/
opaque csActiveLevel : Bit

end Sys2Proof.Config
end

