-- ==== Sys2Proof/Machine/State.lean ====
section
/-! DEFINITION. The state of the engine (10_state.md R20, exhaustive), the fields the model adds for the host, the
environment and the observer, and the state after reset (R44). -/

namespace Sys2Proof.Machine

/-- `SEQ.STATE` (R28). -/
inductive SeqState where
  | idle
  | busy
  | faulted
deriving DecidableEq, Repr

/-- `SEQ.OP`: which of the five commands is running (R28). -/
inductive Op where
  | cfgfmt
  | cfgfreq
  | xfer
  | qwr
  | qrd
deriving DecidableEq, Repr

/-- A pin output latch of `w` bits. The spec's `undef` (R13, R30 to R32) is `written = false`: the latch then holds no
value of the spec's, its `level` is never shown, and every reader takes a free value (log entry 2). -/
structure Latch (w : Nat) where
  level : BitVec w
  written : Bool
deriving DecidableEq, Repr

/-- Who answers pin samples (20_memory.md R66): an unconstrained oracle, or one of the fixtures that R66 names. -/
inductive Env where
  /-- Any bit and any nibble, by the history (R66). -/
  | oracle
  /-- The serial-in pad mirrors the serial-out pad (R83); the lanes are answered as by the oracle (R177). -/
  | loopback
  /-- The same bit and the same nibble at every sample. -/
  | constant (miso : Bit) (lanes : Nibble)
  /-- Scripted answers, the next one first; past the end of a list, the oracle. -/
  | scripted (miso : List Bit) (lanes : List Nibble)
deriving DecidableEq, Repr

/-- The pin identifiers bound at construction (00_scope.md R10, R40): never changed by any rule. -/
structure Pins where
  sout : Nat
  sin : Nat
  sclk : Nat
  lane0 : Nat
  lane1 : Nat
  lane2 : Nat
  lane3 : Nat
deriving DecidableEq, Repr

/-- Why the machine stops with no rule that gives the next state. -/
inductive Fault where
  /-- Raised by `step` in BUSY when `SEQ.IDX` is past the end of the micro-program: R120 enables no step there, and R29
  says it cannot happen. SAFE: no state that meets the invariant `Inv` of Safety.lean reaches it (log entry 11). -/
  | indexPastEnd
deriving DecidableEq, Repr

/-- Why the model gives a step no meaning. -/
inductive Refusal where
  /-- Raised only by an arm of `exec` whose instruction has no meaning yet. SAFE: the machine stops. -/
  | notModelled (mnemonic : String)
  /-- Raised by `XFER` where a lane pin shares a pad with a single-wire data pin and a quad command has completed since
  reset: 60_exceptions.md R206 refuses exactly this. SAFE: the machine stops where some wirings go on. Never on this
  spec's hardware, whose pins are distinct (log entries 12 and 13). -/
  | directionInterleaved
deriving DecidableEq, Repr

/-- The state. The first fifteen fields are the spec's (R20); `CFG.BITS` is hard-wired and has no storage (R21,
`State.cfgBits` in Machine/Flags.lean). The others are the model's own (INVENTORY.md, State). -/
structure State where
  /-- `CFG.MODE` (R22). -/
  cfgMode : BitVec 2
  /-- `CFG.FMT_VALID` (R24). -/
  fmtValid : Bool
  /-- `CFG.HZ` (R25). -/
  cfgHz : BitVec 32
  /-- `CFG.FREQ_VALID` (R25). -/
  freqValid : Bool
  /-- `TX` (R26). -/
  tx : Byte
  /-- `RX` (R27). -/
  rx : Byte
  /-- `SEQ.STATE` (R28). -/
  seqState : SeqState
  /-- `SEQ.OP` (R28). -/
  seqOp : Op
  /-- `SEQ.IDX` (R29). -/
  seqIdx : Nat
  /-- `FAULT.CODE` (R36). -/
  faultCode : FaultCode
  /-- `FAULT.CMD` (R36). -/
  faultCmd : CmdWord
  /-- `SCK` (R30). -/
  sck : Latch 1
  /-- `MOSI` (R31). -/
  mosi : Latch 1
  /-- `QOUT`, bit `L` for lane `L` (R32). -/
  qout : Latch 4
  /-- `QDIR` (R33). -/
  qdir : Dir
  /-- Model's own: a quad command has completed since reset, the condition of R206 (log entry 13). -/
  quadRun : Bool
  /-- Model's own: the events since reset, newest first (R134, log entry 8). -/
  trace : List Event
  /-- Model's own: the traces before each earlier reset, newest first (log entry 8). -/
  past : History
  /-- Model's own: the command words the host presents, in order (R90, log entry 6). -/
  host : List CmdWord
  /-- Model's own: the level of `rst` at each coming step, low once the list is empty (R230, log entry 7). -/
  rstLine : List Bool
  /-- Model's own: `rst` was high at the previous step, so a further step with `rst` high holds the same reset (R232, log
  entry 7). -/
  rstHeld : Bool
  /-- Model's own: who answers samples (R66, log entry 5). -/
  env : Env
  /-- The pin identifiers, parameters bound at construction (R40, log entry 12). -/
  pins : Pins
deriving DecidableEq, Repr

/-- A latch no step has written since reset: the spec's `undef` (R44). -/
def Latch.unwritten (w : Nat) : Latch w := { level := 0, written := false }

/-- A latch written to `b`. -/
def Latch.driven {w : Nat} (b : BitVec w) : Latch w := { level := b, written := true }

/-- Seven distinct pads: `LANE_ALIAS = false`, this spec's hardware (R10; the numbers are a DESIGN CHOICE, log entry 12). -/
def Pins.separate : Pins :=
  { sout := 0, sin := 1, sclk := 2, lane0 := 3, lane1 := 4, lane2 := 5, lane3 := 6 }

/-- The state after reset (R44, R231): `IDLE`, no fault, both valid bits 0, lanes inputs, the three latches unwritten.
Every other register is `undef` in the spec and holds a named value here (DESIGN CHOICE, log entry 1); the host
presents nothing, `rst` has just been released, and the environment is the oracle (log entries 5, 6, 7). -/
def State.reset : State where
  cfgMode := 0
  fmtValid := false
  cfgHz := 0
  freqValid := false
  tx := 0
  rx := 0
  seqState := .idle
  seqOp := .cfgfmt
  seqIdx := 0
  faultCode := .noFault
  faultCmd := 0
  sck := .unwritten 1
  mosi := .unwritten 1
  qout := .unwritten 4
  qdir := .inp
  quadRun := false
  trace := []
  past := []
  host := []
  rstLine := []
  rstHeld := true
  env := .oracle
  pins := .separate

end Sys2Proof.Machine
end

