-- ==== Sys2Proof/Machine/Flags.lean ====
section
/-! DEFINITION. The flags of the engine (10_state.md R37): the two valid bits, the fault code, the derived `BUSY`; and
the hard-wired width register. There is no condition code. -/

namespace Sys2Proof.Machine

/-- `CFG.BITS`: hard-wired to 8, no storage, written by nothing (R21, log entry 18). -/
def State.cfgBits (_s : State) : Byte := 8#8

/-- What `XFER`, `QWR` and `QRD` need: `CFG.FMT_VALID = 1` and `CFG.FREQ_VALID = 1` (R205). -/
def State.configured (s : State) : Bool := s.fmtValid && s.freqValid

/-- `BUSY = (SEQ.STATE = BUSY)` (R37). -/
def State.isBusy (s : State) : Bool := s.seqState == .busy

/-- `cmd_ready`: 1 exactly when `SEQ.STATE = IDLE` (R90, R108). -/
def State.cmdReady (s : State) : Bool := s.seqState == .idle

/-- The 3-bit value of `FAULT.CODE` (R36, R219). -/
def FaultCode.code : FaultCode → BitVec 3
  | .noFault => 0#3
  | .illegalCommand => 1#3
  | .widthUnsupported => 2#3
  | .freqZero => 3#3
  | .notConfigured => 4#3

end Sys2Proof.Machine
end

