-- ==== Sys2Proof/Machine/Operands.lean ====
section
/-! DEFINITION. The operand forms: the only arithmetic the engine performs (00_scope.md R14). -/

namespace Sys2Proof.Machine

/-- `v[i]`, one bit of a byte (R12, R14 b). -/
def bitAt (v : Byte) (i : Nat) : Bit := v.extractLsb' i 1

/-- `v[7:4]` (R14 d). -/
def upperNibble (v : Byte) : Nibble := v.extractLsb' 4 4

/-- `v[3:0]` (R14 d). -/
def lowerNibble (v : Byte) : Nibble := v.extractLsb' 0 4

/-- `nibble[L]`, the bit of lane `L` (R12, R64). -/
def laneBit (n : Nibble) (lane : Fin 4) : Bit := n.extractLsb' lane.val 1

/-- `CPOL = CFG.MODE[1]` (R23, R14 a). -/
def cpol (mode : BitVec 2) : Bit := mode.extractLsb' 1 1

/-- `CPHA = CFG.MODE[0]` (R23, R14 a). -/
def cpha (mode : BitVec 2) : Bit := mode.extractLsb' 0 1

/-- `zext_8(s) << i`, what a single-wire sample contributes to `RX` (R127, R14 c). -/
def placeBit (b : Bit) (i : BitVec 3) : Byte := b.setWidth 8 <<< i.toNat

/-- `zext_8(n) << (4*h)`, what a lane sample contributes to `RX` (R133, R14 e). -/
def placeNibble (n : Nibble) : Half → Byte
  | .low => n.setWidth 8
  | .high => n.setWidth 8 <<< 4

end Sys2Proof.Machine
end

