-- ==== Sys2Proof/Machine/Ops.lean ====
section
/-! DEFINITION. The shared operations over the state: the trace, the input lines of the host, the pin primitives
(20_memory.md R62 to R65), taking a fault (60_exceptions.md R208), the only return from one, reset (70 R230), and the
three steps of the sequencer (40_sequencer_uops.md R121 to R123). -/

namespace Sys2Proof.Machine

/-! ### The trace and the input lines -/

/-- `emit e` (R13, R134). -/
def emit (e : Event) (s : State) : State := { s with trace := e :: s.trace }

/-- The event history the environment may have seen (R66). -/
def State.history (s : State) : History := s.trace :: s.past

/-- The level of `rst` at this step (R108). -/
def State.rstNow (s : State) : Bool := s.rstLine.headD false

/-- The input lines move on by one step, and the level `rst` had at this one is remembered. -/
def tick (s : State) : State := { s with rstLine := s.rstLine.tail, rstHeld := s.rstNow }

/-- The word on the command port is taken: the handshake of R90 has completed. -/
def popHost (s : State) : State := { s with host := s.host.tail }

/-! ### The pin primitives -/

/-- The level a latch shows: its own once written, else the free value `free` (R38). -/
def Latch.shown {w : Nat} (free : BitVec w) (l : Latch w) : BitVec w := if l.written then l.level else free

/-- The level of the `SCK` latch (R30, R38). -/
def State.sckLevel (s : State) : Bit := s.sck.shown (Config.undefSck s.past)

/-- The level of the `MOSI` latch (R31, R38). -/
def State.mosiLevel (s : State) : Bit := s.mosi.shown (Config.undefMosi s.past)

/-- The levels of the `QOUT` latches (R32, R38). -/
def State.qoutLevel (s : State) : Nibble := s.qout.shown (Config.undefQout s.past)

/-- `PinWrite(SCK, b)` (R62). -/
def pinWriteSck (b : Bit) (s : State) : State := { s with sck := .driven b }

/-- `PinWrite(MOSI, b)` (R62). -/
def pinWriteMosi (b : Bit) (s : State) : State := { s with mosi := .driven b }

/-- `QOUT <- n`, all four latches in one step (R62, R132). -/
def pinWriteQ (n : Nibble) (s : State) : State := { s with qout := .driven n }

/-- `PinDirQ(d)`, all four lanes in one step (R65). -/
def pinDirQ (d : Dir) (s : State) : State := { s with qdir := d }

/-- `PinRead(MISO)`: the level the environment answers with, and the environment afterwards (R63, R66, R83). -/
def pinReadMiso (s : State) : Bit × Env :=
  match s.env with
  | .oracle => (Config.misoDraw s.history, .oracle)
  | .loopback => (s.mosiLevel, .loopback)
  | .constant b n => (b, .constant b n)
  | .scripted [] ns => (Config.misoDraw s.history, .scripted [] ns)
  | .scripted (b :: bs) ns => (b, .scripted bs ns)

/-- `PinReadQ()`: the four lane levels, all in one step, and the environment afterwards (R64, R66, R177). -/
def pinReadQ (s : State) : Nibble × Env :=
  match s.env with
  | .oracle => (Config.lanesDraw s.history, .oracle)
  | .loopback => (Config.lanesDraw s.history, .loopback)
  | .constant b n => (n, .constant b n)
  | .scripted bs [] => (Config.lanesDraw s.history, .scripted bs [])
  | .scripted bs (n :: ns) => (n, .scripted bs ns)

/-- `RX <- RX | v`, with the environment as the sample left it (R14 c, e). -/
def orRx (v : Byte) (env : Env) (s : State) : State := { s with rx := s.rx ||| v, env := env }

/-! ### Taking a fault, and reset, the only way out of one -/

/-- `raise Fault(code, cmd)` (R208): the two fault registers, `FAULTED`, the event; nothing else. -/
def raiseFault (code : FaultCode) (cmd : CmdWord) (s : State) : State :=
  emit (.fault code cmd) { s with faultCode := code, faultCmd := cmd, seqState := .faulted }

/-- Reset (R230, R44): the engine as after reset whatever it was doing, with no `done`. The pin bindings, the host, the
environment and the record of what was seen are outside the engine and stay. It is also the only return from a fault
(R209). While `rst` is held it is one reset: the first step of it closes the record, the further ones leave `past`, and
with it the `undef` levels of the pads, as they are (R232, R38). -/
def takeReset (s : State) : State :=
  { State.reset with
    pins := s.pins, host := s.host, rstLine := s.rstLine, env := s.env,
    past := if s.rstHeld then s.past else s.trace :: s.past }

/-! ### The steps of the sequencer -/

/-- `f s` in `IDLE`; in `BUSY` and `FAULTED` a presented command waits and has no effect (R90, log
entry 10). -/
def whenIdle (s : State) (f : State → Host.Outcome State Fault Refusal) : Host.Outcome State Fault Refusal :=
  match s.seqState with
  | .idle => f s
  | .busy => .next s
  | .faulted => .next s

/-- The common end of the accept step (R121): `SEQ.OP`, `SEQ.IDX`, `SEQ.STATE` and the event. -/
def beginCommand (op : Op) (cmd : CmdWord) (s : State) : State :=
  emit (.accept cmd) { s with seqOp := op, seqIdx := 0, seqState := .busy }

/-- The state check of R207 step 3 before a transfer: `NotConfigured` (R205), else go on. -/
def whenConfigured (cmd : CmdWord) (s : State) (f : State → Host.Outcome State Fault Refusal) :
    Host.Outcome State Fault Refusal :=
  if s.configured then f s else .next (raiseFault .notConfigured cmd s)

/-- `LANE_ALIAS`: some lane pin is the serial-out or the serial-in pin (R11, 92_eei_decisions.md open parameters). -/
def Pins.laneAlias (p : Pins) : Bool :=
  [p.lane0, p.lane1, p.lane2, p.lane3].any fun l => l == p.sout || l == p.sin

/-- The condition under which R206 refuses an `XFER`. -/
def State.interleaved (s : State) : Bool := s.pins.laneAlias && s.quadRun

/-- The micro-step (R122) of micro-op `u`, whose effect on pins and registers is `f` and whose sampled value is `smp`:
perform it, emit it, advance the index by one. Outside `BUSY` the sequencer performs no micro-op (R120, R137, log
entry 10). -/
def microStep (u : Instr) (smp : Sample) (f : State → State) (s : State) : Host.Outcome State Fault Refusal :=
  match s.seqState with
  | .busy => .next (emit (.uop u smp) { f s with seqIdx := s.seqIdx + 1 })
  | .idle => .next s
  | .faulted => .next s

/-- Whether a command returns a byte (R101). -/
def Op.returnsByte : Op → Bool
  | .xfer => true
  | .qrd => true
  | .cfgfmt => false
  | .cfgfreq => false
  | .qwr => false

/-- Whether a command is a quad command (R206). -/
def Op.isQuad : Op → Bool
  | .qwr => true
  | .qrd => true
  | .cfgfmt => false
  | .cfgfreq => false
  | .xfer => false

/-- The completion step (R123): `Done` with `RX` for `XFER` and `QRD`, without a byte otherwise; back to `IDLE`. The
model also records that a quad command has completed (R206, log entry 13). -/
def complete (s : State) : State :=
  emit (.done (if s.seqOp.returnsByte then some s.rx else none))
    { s with seqState := .idle, quadRun := s.quadRun || s.seqOp.isQuad }

end Sys2Proof.Machine
end

