-- ==== Sys2Proof/Machine/Configuration.lean ====
section
/-! DEFINITION. The accept steps of the configuration commands (41_config.md R150, R151; 40 R121). Their pin work is the
micro-program of Machine/Uprog.lean. -/

namespace Sys2Proof.Machine

/-- `CFGFMT bits, mode` (R150): a width other than `CFG.BITS` faults `WidthUnsupported` (R203) and changes nothing else.
The valid bit is set here, at the accept step (R121, log entry 24). -/
def execCfgfmt (bits : Byte) (mode : BitVec 2) (s : State) : Host.Outcome State Fault Refusal :=
  let cmd := commandWord (.cfgfmt bits mode)
  whenIdle s fun s =>
    if bits = s.cfgBits then .next (beginCommand .cfgfmt cmd { s with cfgMode := mode, fmtValid := true })
    else .next (raiseFault .widthUnsupported cmd s)

/-- `CFGFREQ hz` (R151): 0 faults `FreqZero` (R204) and changes nothing else. -/
def execCfgfreq (hz : BitVec 32) (s : State) : Host.Outcome State Fault Refusal :=
  let cmd := commandWord (.cfgfreq hz)
  whenIdle s fun s =>
    if hz = 0#32 then .next (raiseFault .freqZero cmd s)
    else .next (beginCommand .cfgfreq cmd { s with cfgHz := hz, freqValid := true })

end Sys2Proof.Machine
end

