-- ==== Sys2Proof/Machine/MicroOps.lean ====
section
/-! DEFINITION. The meanings of the eight micro-ops (40_sequencer_uops.md R126 to R133), each one micro-step (R122). -/

namespace Sys2Proof.Machine

/-- `U_WAIT` (R129): no state changes but the index; the wait's length is no state (R250, log entry 17). -/
def execUWait (s : State) : Host.Outcome State Fault Refusal :=
  microStep .uWait .nothing id s

/-- `U_DRIVE_MOSI b` (R126): `MOSI <- b`. -/
def execUDriveMosi (b : Bit) (s : State) : Host.Outcome State Fault Refusal :=
  microStep (.uDriveMosi b) .nothing (pinWriteMosi b) s

/-- `U_SAMPLE_MISO i` (R127): `s <- PinRead(MISO)`, `RX <- RX | (zext_8(s) << i)`. -/
def execUSampleMiso (i : BitVec 3) (s : State) : Host.Outcome State Fault Refusal :=
  let r := pinReadMiso s
  microStep (.uSampleMiso i) (.bit r.1) (orRx (placeBit r.1 i) r.2) s

/-- `U_TOGGLE_SCK` (R128): `SCK <- ~SCK`. -/
def execUToggleSck (s : State) : Host.Outcome State Fault Refusal :=
  microStep .uToggleSck .nothing (pinWriteSck (~~~s.sckLevel)) s

/-- `U_SET_SCK b` (R130): `SCK <- b`, also when it already holds `b`. -/
def execUSetSck (b : Bit) (s : State) : Host.Outcome State Fault Refusal :=
  microStep (.uSetSck b) .nothing (pinWriteSck b) s

/-- `U_QDIR d` (R131): `QDIR <- d`; `QOUT` keeps its value. -/
def execUQdir (d : Dir) (s : State) : Host.Outcome State Fault Refusal :=
  microStep (.uQdir d) .nothing (pinDirQ d) s

/-- `U_DRIVEQ n` (R132): `QOUT <- n`, all four latches in one step. -/
def execUDriveq (n : Nibble) (s : State) : Host.Outcome State Fault Refusal :=
  microStep (.uDriveq n) .nothing (pinWriteQ n) s

/-- `U_SAMPLEQ h` (R133): `n <- PinReadQ()`, `RX <- RX | (zext_8(n) << (4*h))`. -/
def execUSampleq (h : Half) (s : State) : Host.Outcome State Fault Refusal :=
  let r := pinReadQ s
  microStep (.uSampleq h) (.nibble r.1) (orRx (placeNibble r.1 h) r.2) s

end Sys2Proof.Machine
end

