-- ==== Sys2Proof/Machine/Quad.lean ====
section
/-! DEFINITION. The accept steps of the quad transfers (43_quad.md R170, R173; 40 R121). -/

namespace Sys2Proof.Machine

/-- `QWR value` (R170): faults `NotConfigured` (R205) before both configuration commands have run; otherwise
`TX <- value`, `RX` untouched (R27). -/
def execQwr (value : Byte) (s : State) : Host.Outcome State Fault Refusal :=
  let cmd := commandWord (.qwr value)
  whenIdle s fun s =>
    whenConfigured cmd s fun s => .next (beginCommand .qwr cmd { s with tx := value })

/-- `QRD` (R173): faults `NotConfigured` (R205) before both configuration commands have run; otherwise `RX <- 0x00`,
`TX` untouched (R26). -/
def execQrd (s : State) : Host.Outcome State Fault Refusal :=
  let cmd := commandWord .qrd
  whenIdle s fun s =>
    whenConfigured cmd s fun s => .next (beginCommand .qrd cmd { s with rx := 0#8 })

end Sys2Proof.Machine
end

