-- ==== Sys2Proof/Machine/SingleWire.lean ====
section
/-! DEFINITION. The accept step of the single-wire transfer (42_single_wire.md R160; 40 R121). -/

namespace Sys2Proof.Machine

/-- `XFER value` (R160): faults `NotConfigured` (R205) before both configuration commands have run; refused where R206
refuses it (shared pads only); otherwise `TX <- value`, `RX <- 0x00` and the command runs. -/
def execXfer (value : Byte) (s : State) : Host.Outcome State Fault Refusal :=
  let cmd := commandWord (.xfer value)
  whenIdle s fun s =>
    whenConfigured cmd s fun s =>
      if s.interleaved then .refused .directionInterleaved
      else .next (beginCommand .xfer cmd { s with tx := value, rx := 0#8 })

end Sys2Proof.Machine
end

