-- ==== Sys2Proof/Machine/Dispatch.lean ====
section
/-! DEFINITION. One arm per instruction. A command's arm is its accept step, a micro-op's arm its micro-step. -/

namespace Sys2Proof.Machine

def exec (i : Instr) (s : State) : Host.Outcome State Fault Refusal :=
  match i with
  | .cfgfmt bits mode => Sys2Proof.Machine.execCfgfmt bits mode s
  | .cfgfreq hz => Sys2Proof.Machine.execCfgfreq hz s
  | .xfer value => Sys2Proof.Machine.execXfer value s
  | .qwr value => Sys2Proof.Machine.execQwr value s
  | .qrd => Sys2Proof.Machine.execQrd s
  | .uWait => Sys2Proof.Machine.execUWait s
  | .uDriveMosi b => Sys2Proof.Machine.execUDriveMosi b s
  | .uSampleMiso pos => Sys2Proof.Machine.execUSampleMiso pos s
  | .uToggleSck => Sys2Proof.Machine.execUToggleSck s
  | .uSetSck b => Sys2Proof.Machine.execUSetSck b s
  | .uQdir d => Sys2Proof.Machine.execUQdir d s
  | .uDriveq n => Sys2Proof.Machine.execUDriveq n s
  | .uSampleq h => Sys2Proof.Machine.execUSampleq h s

end Sys2Proof.Machine
end

