-- ==== Sys2Proof/Machine/Uprog.lean ====
section
/-! DEFINITION. The micro-programs (40_sequencer_uops.md R124): the ordered list of micro-ops each command expands to. -/

namespace Sys2Proof.Machine

/-- The micro-ops of bit `i` of `XFER` (R124, R161): with `CPHA = 0` the sample comes before the first toggle, with
`CPHA = 1` after the first toggle and its wait. -/
def bitprog (mode : BitVec 2) (tx : Byte) (i : BitVec 3) : List Instr :=
  if cpha mode = 0#1 then
    [.uDriveMosi (bitAt tx i.toNat), .uSampleMiso i, .uToggleSck, .uWait, .uToggleSck, .uWait]
  else
    [.uDriveMosi (bitAt tx i.toNat), .uToggleSck, .uWait, .uSampleMiso i, .uToggleSck, .uWait]

/-- `uprog` (R124), from the configuration and the operand as the accept step leaves them. -/
def uprog (op : Op) (mode : BitVec 2) (tx : Byte) : List Instr :=
  match op with
  | .cfgfmt => [.uSetSck (cpol mode)]
  | .cfgfreq => []
  | .xfer =>
    bitprog mode tx 7 ++ bitprog mode tx 6 ++ bitprog mode tx 5 ++ bitprog mode tx 4 ++
    bitprog mode tx 3 ++ bitprog mode tx 2 ++ bitprog mode tx 1 ++ bitprog mode tx 0
  | .qwr =>
    [.uQdir .out,
     .uDriveq (upperNibble tx), .uToggleSck, .uWait, .uToggleSck, .uWait,
     .uDriveq (lowerNibble tx), .uToggleSck, .uWait, .uToggleSck, .uWait]
  | .qrd =>
    [.uQdir .inp,
     .uToggleSck, .uSampleq .high, .uWait, .uToggleSck, .uWait,
     .uToggleSck, .uSampleq .low, .uWait, .uToggleSck, .uWait]

/-- The running command's micro-program: `CFG.MODE` and `TX` do not change while it runs (R26, R46). -/
def State.uprog (s : State) : List Instr := Machine.uprog s.seqOp s.cfgMode s.tx

end Sys2Proof.Machine
end

