-- ==== Sys2Proof/Machine/Sequencer.lean ====
section
/-! DEFINITION. Which step is enabled (40_sequencer_uops.md R120), and how a word is placed where the next step takes
it. Machine/Step.lean only calls these. -/

namespace Sys2Proof.Machine

/-- The step that is enabled. -/
inductive Enabled where
  /-- `rst` is asserted (R230). -/
  | reset
  /-- No step: `IDLE` with no command presented, or `FAULTED` (R120, R137). -/
  | quiet
  /-- The accept step of a command that decodes (R121). -/
  | accept (i : Instr)
  /-- The accept step of a word that decodes to no command (R202). -/
  | illegal (w : CmdWord)
  /-- The micro-step of the current micro-op (R122). -/
  | micro (u : Instr)
  /-- The completion step (R123). -/
  | complete
  /-- `BUSY` with the index past the end: no rule (log entry 11). -/
  | pastEnd
deriving DecidableEq, Repr

/-- What a presented command word enables in `IDLE` (R121, R202). -/
def enabledByWord (w : CmdWord) : Enabled :=
  match decode (.cmd w) with
  | .ok i => .accept i
  | .error _ => .illegal w

/-- What is enabled in `IDLE`: the first word the host presents, if any (R90). -/
def enabledInIdle (s : State) : Enabled :=
  match s.host with
  | [] => .quiet
  | w :: _ => enabledByWord w

/-- What is enabled in `BUSY`: the micro-op at `SEQ.IDX`, or completion at the end (R120). -/
def enabledInBusy (s : State) : Enabled :=
  match s.uprog[s.seqIdx]? with
  | some u => .micro u
  | none => if s.seqIdx = s.uprog.length then .complete else .pastEnd

/-- The one step enabled in a state (R120). `rst` comes first: it can interrupt anything (R230). -/
def enabled (s : State) : Enabled :=
  if s.rstNow then .reset
  else
    match s.seqState with
    | .idle => enabledInIdle s
    | .busy => enabledInBusy s
    | .faulted => .quiet

/-- An illegal word is taken from the port and faults `IllegalCommand` (R202, R207 step 1, log entry 14). -/
def acceptIllegal (w : CmdWord) (s : State) : State :=
  raiseFault .illegalCommand w (popHost s)

/-- The state with command word `w` first on the command port of an idle engine whose reset is released. -/
def presentCommand (w : CmdWord) (s : State) : State :=
  { s with seqState := .idle, host := w :: s.host, rstLine := [] }

/-- The state in which the sequencer runs `op` and is about to play index `idx` of its micro-program. -/
def atIndex (op : Op) (idx : Nat) (s : State) : State :=
  { s with seqState := .busy, seqOp := op, seqIdx := idx, rstLine := [] }

/-- The position of the sample of bit `i` in the micro-program of `XFER` (R124). -/
def sampleIndex (mode : BitVec 2) (i : BitVec 3) : Nat :=
  6 * (7 - i.toNat) + (if cpha mode = 0#1 then 1 else 3)

/-- The state in which the sequencer is about to play `u`: micro-ops are fetched from nowhere (R102), so the running
command, the index and, where the micro-program reads them, the bit of `TX` or the bit of `CFG.MODE` are set to those
of a place where `u` stands (log entry 6). A command is presented on the port instead. -/
def placeInstr (u : Instr) (s : State) : State :=
  match u with
  | .uWait => atIndex .qwr 3 s
  | .uDriveMosi b => atIndex .xfer 0 { s with tx := b ++ s.tx.extractLsb' 0 7 }
  | .uSampleMiso i => atIndex .xfer (sampleIndex s.cfgMode i) s
  | .uToggleSck => atIndex .qrd 1 s
  | .uSetSck b => atIndex .cfgfmt 0 { s with cfgMode := b ++ cpha s.cfgMode }
  | .uQdir .inp => atIndex .qrd 0 s
  | .uQdir .out => atIndex .qwr 0 s
  | .uDriveq n => atIndex .qwr 1 { s with tx := n ++ lowerNibble s.tx }
  | .uSampleq .high => atIndex .qrd 2 s
  | .uSampleq .low => atIndex .qrd 7 s
  | .cfgfmt bits mode => presentCommand (commandWord (.cfgfmt bits mode)) s
  | .cfgfreq hz => presentCommand (commandWord (.cfgfreq hz)) s
  | .xfer value => presentCommand (commandWord (.xfer value)) s
  | .qwr value => presentCommand (commandWord (.qwr value)) s
  | .qrd => presentCommand (commandWord .qrd) s

/-- The state with the instruction of code `c` where the next step takes it. A command word is presented as it is,
also one that decodes to nothing; a code that is no micro-op can be placed nowhere and leaves the state as it is. -/
def placeCode (c : Code) (s : State) : State :=
  match c with
  | .cmd w => presentCommand w s
  | .uop u =>
    match decodeUop u with
    | .ok i => placeInstr i s
    | .error _ => s

end Sys2Proof.Machine
end

