-- ==== Sys2Proof/Machine/Step.lean ====
section
/-! DEFINITION. One step of the machine (40_sequencer_uops.md R120). -/

namespace Sys2Proof.Machine

/-- One step. The `rst` line moves on by one; then the enabled step of R120 is taken. The accept step takes the
presented word from the port (R90) and runs the command's meaning; the micro-step runs the current micro-op's. Where
the engine has no step, nothing changes (log entry 9). -/
def step (s : State) : Host.Outcome State Fault Refusal :=
  match enabled s with
  | .reset => .next (tick (takeReset s))
  | .quiet => .next (tick s)
  | .accept i => exec i (popHost (tick s))
  | .illegal w => .next (acceptIllegal w (tick s))
  | .micro u => exec u (tick s)
  | .complete => .next (complete (tick s))
  | .pastEnd => .fault .indexPastEnd

/-- The state in which the very next step takes the instruction whose bits are `w`, numbered as the opcode table
numbers them: a command word on the command port, a micro-op at a place of a micro-program (log entry 6). -/
def State.withFetchWord (s : State) (nbits w : Nat) : State :=
  placeCode (tableCode nbits w) s

end Sys2Proof.Machine
end

