-- ==== Sys2Proof/Machine/Framer.lean ====
section
/-! DEFINITION. The caller's macros (44_framer_interface.md R190 to R197): host-side expansions into engine commands, and
the bytes the caller receives. Chip-select is the caller's; nothing here is state or behaviour of the engine (log
entry 21). -/

namespace Sys2Proof.Machine

/-- One line of a host program (R105): a chip-select action, or a command to the engine. -/
inductive HostLine where
  /-- `CS.ASSERT` (R190). -/
  | csAssert
  /-- `CS.DEASSERT` (R190). -/
  | csDeassert
  /-- A command presented on the command port; its response, if it has one, is discarded. -/
  | issue (cmd : Instr)
  /-- A command written with an arrow, `XFER dummy -> d`: its response is a byte of the macro's result (R194 to R196). -/
  | receive (cmd : Instr)
deriving DecidableEq, Repr

/-- The level a chip-select line drives (R190, R10): only the open parameter says which level asserts. -/
def HostLine.csLevel : HostLine → Option Bit
  | .csAssert => some Config.csActiveLevel
  | .csDeassert => some (~~~Config.csActiveLevel)
  | .issue _ => none
  | .receive _ => none

/-- The command a line presents; chip-select lines are not commands to the engine (R105). -/
def HostLine.command : HostLine → Option Instr
  | .csAssert => none
  | .csDeassert => none
  | .issue cmd => some cmd
  | .receive cmd => some cmd

/-- The command words of a host program, in order. -/
def hostWords (p : List HostLine) : List CmdWord :=
  (p.filterMap HostLine.command).map commandWord

/-- The state whose host goes on, after what it already has, with program `p`. -/
def withProgram (p : List HostLine) (s : State) : State := { s with host := s.host ++ hostWords p }

/-! ### What the caller receives -/

/-- What the completion of a command brings the host: a byte or none (R101); no other event completes a command. -/
def Event.completion : Event → Option (Option Byte)
  | .done r => some r
  | .accept _ => none
  | .uop _ _ => none
  | .fault _ _ => none

/-- The completions between an earlier state and a later one without a reset between, oldest first: one entry for each
command that has completed (R77). -/
def completionsSince (s t : State) : List (Option Byte) :=
  (t.trace.take (t.trace.length - s.trace.length)).reverse.filterMap Event.completion

/-- The bytes a host program keeps of its commands' completions, taken in order: a `receive` line keeps its response, an
`issue` line discards it (R192 to R196). -/
def received : List HostLine → List (Option Byte) → List Byte
  | [], _ => []
  | .csAssert :: ls, rs => received ls rs
  | .csDeassert :: ls, rs => received ls rs
  | .issue _ :: ls, rs => received ls rs.tail
  | .receive _ :: ls, rs => (rs.head?.join).toList ++ received ls rs.tail

/-- The result of a host program that the engine has run from `s` to `t`. -/
def programResult (p : List HostLine) (s t : State) : List Byte := received p (completionsSince s t)

/-! ### The transactions -/

/-- A transaction: one chip-select around a sequence of commands (R191). -/
def transaction (body : List HostLine) : List HostLine :=
  .csAssert :: body ++ [.csDeassert]

/-- Commands whose responses are discarded. -/
def sends (cmds : List Instr) : List HostLine := cmds.map .issue

/-- The high byte of a 16-bit address, which goes first (R193). -/
def addrHigh (a : BitVec 16) : Byte := a.extractLsb' 8 8

/-- The low byte of a 16-bit address. -/
def addrLow (a : BitVec 16) : Byte := a.extractLsb' 0 8

/-- `WRMR m` (R192); both responses are discarded. -/
def wrmr (m : Byte) : List HostLine := transaction (sends [.xfer 0x01, .xfer m])

/-- `WRITE a, d0, d1, ...` (R193); all responses are discarded. -/
def write (a : BitVec 16) (data : List Byte) : List HostLine :=
  transaction (sends ([.xfer 0x02, .xfer (addrHigh a), .xfer (addrLow a)] ++ data.map .xfer))

/-- `RDMR` (R194): the response of the second `XFER` is the register value. The dummy byte is the caller's
(91_not_in_source.md N20). -/
def rdmr (dummy : Byte) : List HostLine := transaction (sends [.xfer 0x05] ++ [.receive (.xfer dummy)])

/-- `READ a, n` (R195): three discarded responses, then `n` dummy transfers whose responses are the payload. -/
def read (a : BitVec 16) (n : Nat) (dummy : Byte) : List HostLine :=
  transaction
    (sends [.xfer 0x03, .xfer (addrHigh a), .xfer (addrLow a)] ++ List.replicate n (.receive (.xfer dummy)))

/-- `QWRITE a, d0, ...` (R196). -/
def qwrite (a : BitVec 16) (data : List Byte) : List HostLine :=
  transaction (sends ([.qwr 0x02, .qwr (addrHigh a), .qwr (addrLow a)] ++ data.map .qwr))

/-- `QREAD a, n` (R196): one extra read, whose response is discarded, before the `n` reads of the payload. -/
def qread (a : BitVec 16) (n : Nat) : List HostLine :=
  transaction (sends [.qwr 0x03, .qwr (addrHigh a), .qwr (addrLow a), .qrd] ++ List.replicate n (.receive .qrd))

/-- The quad form of `WRMR` that R196 derives "by the same command framing". -/
def qwrmr (m : Byte) : List HostLine := transaction (sends [.qwr 0x01, .qwr m])

/-- The quad form of `RDMR` that R196 derives: the response of the `QRD` is the register value. Whether the chip wants a
dummy read before it is not in the source (N19). -/
def qrdmr : List HostLine := transaction (sends [.qwr 0x05] ++ [.receive .qrd])

/-! ### The mode-selector bytes -/

/-- The mode bytes of R197: operands of `WRMR`, opaque to the engine. -/
inductive ChipMode where
  | byteMode
  | sequentialMode
  | pageMode
deriving DecidableEq, Repr

/-- The value of a mode byte (R197). -/
def ChipMode.value : ChipMode → Byte
  | .byteMode => 0x00
  | .sequentialMode => 0x40
  | .pageMode => 0x80

/-- `WRMR` of a mode byte (R197). -/
def setChipMode (m : ChipMode) : List HostLine := wrmr m.value

/-- The bytes that switch the chip's I/O mode (R197), opaque to the engine. -/
inductive ChipIo where
  | enterDual
  | enterQuad
  | exitToStandard
deriving DecidableEq, Repr

/-- The value of an I/O-mode byte (R197). -/
def ChipIo.value : ChipIo → Byte
  | .enterDual => 0x3B
  | .enterQuad => 0x38
  | .exitToStandard => 0xFF

/-- The engine's two ways to send a byte. -/
inductive SendPrimitive where
  | singleWire
  | quad
deriving DecidableEq, Repr

/-- The command that sends a byte in a given way (R160, R170). -/
def SendPrimitive.send : SendPrimitive → Byte → Instr
  | .singleWire, v => .xfer v
  | .quad, v => .qwr v

/-- An I/O-mode byte, sent as a single byte in its own transaction (R197). Through which primitive is the caller's choice:
the source does not say (N18). -/
def setChipIo (via : SendPrimitive) (io : ChipIo) : List HostLine := transaction (sends [via.send io.value])

end Sys2Proof.Machine
end

