-- ==== Sys2Proof/Machine/Ports.lean ====
section
/-! DEFINITION. What the outside sees: the output ports (30_encoding.md R108, R101), the pads (10_state.md R38), the
event trace in order and its 8-bit codes (R134, R103), and what a monitor can read (20_memory.md R84). Views only: no step
depends on anything here. -/

namespace Sys2Proof.Machine

/-! ### Status and pin ports -/

/-- Port `fault_code` (R36, R108). -/
def State.faultCodePort (s : State) : BitVec 3 := s.faultCode.code

/-- Port `fault_cmd`: the word that faulted; a free value while no fault is recorded (R36, R45, log entry 3). -/
def State.faultCmdPort (s : State) : CmdWord :=
  if s.faultCode = .noFault then Config.undefFaultCmd s.past else s.faultCmd

/-- Port `sck_o` (R108). -/
def State.sckPort (s : State) : Bit := s.sckLevel

/-- Port `mosi_o` (R108). -/
def State.mosiPort (s : State) : Bit := s.mosiLevel

/-- Port `q_o` (R108). -/
def State.qPort (s : State) : Nibble := s.qoutLevel

/-- Port `q_oe` (R108): 1 when the engine drives the lane pads. -/
def State.qOutputEnable (s : State) : Bit := bitOfDir s.qdir

/-! ### Pads -/

/-- The seven pin handles (R61). -/
inductive PinHandle where
  | sck
  | mosi
  | miso
  | lane (l : Fin 4)
deriving DecidableEq, Repr

/-- What the engine does to a pad (R38). -/
inductive PadView where
  | driven (b : Bit)
  | notDriven
deriving DecidableEq, Repr

/-- The pad of each handle, for seven separate pads (R38). -/
def State.pad (s : State) : PinHandle → PadView
  | .sck => .driven s.sckLevel
  | .mosi => .driven s.mosiLevel
  | .miso => .notDriven
  | .lane l =>
    match s.qdir with
    | .out => .driven (laneBit s.qoutLevel l)
    | .inp => .notDriven

/-- The pin identifier each handle is bound to (R40). -/
def Pins.of (p : Pins) : PinHandle → Nat
  | .sck => p.sclk
  | .mosi => p.sout
  | .miso => p.sin
  | .lane 0 => p.lane0
  | .lane 1 => p.lane1
  | .lane 2 => p.lane2
  | .lane 3 => p.lane3

/-- The seven handles. -/
def allHandles : List PinHandle := [.sck, .mosi, .miso, .lane 0, .lane 1, .lane 2, .lane 3]

/-- What a wire-level observer sees of a step: the handles whose pad view changed (R134). DESIGN CHOICE (log entry 26): a
lane pad that passes between driven and not driven always counts as changed; the spec gives an undriven pad no level
(R38, R66), so it leaves open whether the observer sees a change there. -/
def padChanges (s t : State) : List PinHandle := allHandles.filter fun h => s.pad h != t.pad h

/-! ### Completion and the trace -/

/-- The event trace since reset, oldest first (R134). -/
def State.events (s : State) : List Event := s.trace.reverse

/-- The event a step emitted, if it emitted one: the trace grew by it. -/
def emittedBetween (s t : State) : Option Event :=
  if t.trace.length = s.trace.length + 1 then t.trace.head? else none

/-- The `done` pulse of a step (R101). -/
def donePulse (s t : State) : Bool :=
  match emittedBetween s t with
  | some (.done _) => true
  | _ => false

/-- `rsp` where `rsp_valid = 1` in that step, nothing where it is 0 and `rsp` means nothing (R101). -/
def response (s t : State) : Option Byte :=
  match emittedBetween s t with
  | some (.done r) => r
  | _ => none

/-- The 8-bit code a micro-op is written with in a trace (R102, R103). -/
def uopCode (i : Instr) : Option Byte :=
  match encode i with
  | .uop u => some u
  | .cmd _ => none

/-- The micro-op of an event, if it is one (R134). -/
def Event.microOp : Event → Option Instr
  | .uop u _ => some u
  | .accept _ => none
  | .done _ => none
  | .fault _ _ => none

/-- Whether an event is a toggle of the clock: an edge on the wire (R128). -/
def Event.isToggle : Event → Bool
  | .uop .uToggleSck _ => true
  | _ => false

/-- Whether an event is a wait of half a clock period (R129). -/
def Event.isWait : Event → Bool
  | .uop .uWait _ => true
  | _ => false

/-- The codes of the micro-ops in the trace, oldest first (R103). -/
def State.traceCodes (s : State) : List Byte :=
  s.events.filterMap fun e => e.microOp.bind uopCode

/-! ### What a monitor can read -/

/-- Whether the clock is away from its idle level: inside a pulse (R84). Idle is the level of `CFG.MODE` also while
`CFG.FMT_VALID` is 0 or a `CFGFMT` has not yet driven the clock, which R84 does not speak of (DESIGN CHOICE, log entry
27). -/
def State.clockAway (s : State) : Bool := s.sckLevel != cpol s.cfgMode

/-- What the four lane pads show to a quad monitor while the clock is away from its idle level (R84, R176);
Machine/Monitor.lean says when it reads. DESIGN CHOICE (log entry 27): while the lanes are inputs, as inside a pulse of a
`QRD`, nothing; the spec gives an undriven pad no level (R38, R66), so it leaves open what the monitor reads there. -/
def State.monitor (s : State) : Option Nibble :=
  if s.clockAway ∧ s.qdir = .out then some s.qoutLevel else none

/-- The four lanes, lane 0 first. -/
def laneHandles : List PinHandle := [.lane 0, .lane 1, .lane 2, .lane 3]

/-- What a monitor takes down in one reading: the pads it looks at, in its order, as they are at that point (R84). A pad
the engine does not drive is taken down as not driven (DESIGN CHOICE, log entry 27). -/
def State.reading (s : State) (pads : List PinHandle) : List PadView := pads.map s.pad

end Sys2Proof.Machine
end

