-- ==== Sys2Proof/Machine/Monitor.lean ====
section
/-! DEFINITION. Monitors (20_memory.md R84): outside observers that record pad levels at chosen events of a run, among
them the quad monitor, which reads the lanes once per clock pulse (43_quad.md R176). A monitor has no effect on any
state: no step depends on anything here. -/

namespace Sys2Proof.Machine

/-- The reading a monitor takes of a step from `s` to `t`: the pads as the step leaves them, if the step emitted an event
that the monitor chooses. It may choose by the event and by the state the event leads to. -/
def readingAt (chosen : Event → State → Bool) (pads : List PinHandle) (s t : State) : Option (List PadView) :=
  match emittedBetween s t with
  | some e => if chosen e t then some (t.reading pads) else none
  | none => none

/-- What a monitor has recorded after `n` steps from `s`, oldest reading first (R84). -/
def recorded (chosen : Event → State → Bool) (pads : List PinHandle) : Nat → State → List (List PadView)
  | 0, _ => []
  | n + 1, s =>
    match step s with
    | .next t => (readingAt chosen pads s t).toList ++ recorded chosen pads n t
    | .fault _ => []
    | .refused _ => []

/-- Where in a clock pulse a quad monitor reads: "at either edge" or "anywhere inside it" (R176). -/
inductive PulsePoint where
  | leadingEdge
  | inside
  | trailingEdge
deriving DecidableEq, Repr

/-- The events a quad monitor chooses, one in each clock pulse: the toggle that takes the clock away from idle, the wait
while it is away, or the toggle that brings it back (R84, R176). -/
def PulsePoint.chosen : PulsePoint → Event → State → Bool
  | .leadingEdge, e, t => e.isToggle && t.clockAway
  | .inside, e, t => e.isWait && t.clockAway
  | .trailingEdge, e, t => e.isToggle && !t.clockAway

/-- What a quad monitor that reads at `p` has recorded after `n` steps: the four lane pads, once per clock pulse. -/
def quadMonitor (p : PulsePoint) (n : Nat) (s : State) : List (List PadView) := recorded p.chosen laneHandles n s

end Sys2Proof.Machine
end

