-- ==== Sys2Proof/Machine/Timing.lean ====
section
/-! DEFINITION. Durations, as exact rationals in seconds (41_config.md R152; 70_reset_and_hazards.md R250 to R256). No
step, no pin level, no response and no fault depends on anything here (R250). -/

namespace Sys2Proof.Machine

/-- `T_half = 0.5 / hz` seconds (R152). -/
def halfPeriod (hz : BitVec 32) : ℚ := (1 / 2) / (hz.toNat : ℚ)

/-- The least time a `U_WAIT` is promised to take: `T_half` (R251), but nothing beyond 0 above `HZ_MAX` (R151 d). -/
def waitAtLeast (hz : BitVec 32) : ℚ := if hz.toNat ≤ Config.hzMax then halfPeriod hz else 0

/-- The time of every step that is not a wait: `UOP_CYCLES / CLK_SYS` (R252). -/
def stepTime : ℚ := (Config.uopCycles : ℚ) / (Config.clkSys : ℚ)

/-- How often a micro-op stands in a command's micro-program (R136). -/
def countIn (u : Instr) (op : Op) (mode : BitVec 2) (tx : Byte) : Nat := (uprog op mode tx).count u

/-- The nominal duration of a command, counting waits only (R253). -/
def nominalDuration (op : Op) (mode : BitVec 2) (tx : Byte) (hz : BitVec 32) : ℚ :=
  (countIn .uWait op mode tx : ℚ) * halfPeriod hz

end Sys2Proof.Machine
end

