-- ==== Sys2Proof/Safety.lean ====
section
/-! DEFINITION. What a sound state of the engine is: the relations between its registers that every step keeps, among
them the idle level of the clock (10_state.md R39). -/

namespace Sys2Proof.Machine

/-- The words that are commands, by their bits: an assigned opcode with every reserved bit 0 (R92 to R96, R98, R99). -/
def isCommandWord (w : CmdWord) : Prop :=
  (w.extractLsb' 32 8 = 0x10#8 ∧ w.extractLsb' 10 22 = 0#22) ∨
  w.extractLsb' 32 8 = 0x11#8 ∨
  (w.extractLsb' 32 8 = 0x20#8 ∧ w.extractLsb' 8 24 = 0#24) ∨
  (w.extractLsb' 32 8 = 0x21#8 ∧ w.extractLsb' 8 24 = 0#24) ∨
  (w.extractLsb' 32 8 = 0x22#8 ∧ w.extractLsb' 0 32 = 0#32)

/-- The bit an event sampled from `MISO` and its position, if it is such a sample. -/
def Event.sampledBit : Event → Option (BitVec 3 × Bit)
  | .uop (.uSampleMiso i) (.bit b) => some (i, b)
  | _ => none

/-- Whether a command is a transfer, which needs the configuration (R205). -/
def Op.isTransfer : Op → Bool
  | .xfer => true
  | .qwr => true
  | .qrd => true
  | .cfgfmt => false
  | .cfgfreq => false

/-- The command a command instruction runs as; nothing for a micro-op. -/
def commandOp : Instr → Option Op
  | .cfgfmt _ _ => some .cfgfmt
  | .cfgfreq _ => some .cfgfreq
  | .xfer _ => some .xfer
  | .qwr _ => some .qwr
  | .qrd => some .qrd
  | .uWait => none
  | .uDriveMosi _ => none
  | .uSampleMiso _ => none
  | .uToggleSck => none
  | .uSetSck _ => none
  | .uQdir _ => none
  | .uDriveq _ => none
  | .uSampleq _ => none

/-- How many micro-ops each command has (R136). -/
def Op.microOps : Op → Nat
  | .cfgfmt => 1
  | .cfgfreq => 0
  | .xfer => 48
  | .qwr => 11
  | .qrd => 11

/-- The level of `SCK` after `k` micro-ops of a command that starts with the clock at idle: every toggle complements it
(R128), so the parity of the toggles decides. -/
def clockAfter (op : Op) (mode : BitVec 2) (tx : Byte) (k : Nat) : Bit :=
  cpol mode + BitVec.ofNat 1 (((uprog op mode tx).take k).count .uToggleSck)

/-- The bits of `RX` one micro-op fills. -/
def fills : Instr → Byte
  | .uSampleMiso i => 1#8 <<< i.toNat
  | .uSampleq .high => 0xF0
  | .uSampleq .low => 0x0F
  | .uWait => 0
  | .uDriveMosi _ => 0
  | .uToggleSck => 0
  | .uSetSck _ => 0
  | .uQdir _ => 0
  | .uDriveq _ => 0
  | .cfgfmt _ _ => 0
  | .cfgfreq _ => 0
  | .xfer _ => 0
  | .qwr _ => 0
  | .qrd => 0

/-- The bits of `RX` a list of micro-ops fills. -/
def fillsAll (us : List Instr) : Byte := us.foldl (fun m u => m ||| fills u) 0

/-- The bits of `RX` the running command has filled so far. -/
def State.filled (s : State) : Byte := fillsAll (s.uprog.take s.seqIdx)

/-- The relations between the registers that hold at reset and that every step keeps. -/
structure Inv (s : State) : Prop where
  /-- `FAULTED` and a recorded fault go together (R208, R209). -/
  faulted_iff : s.seqState = .faulted ↔ s.faultCode ≠ .noFault
  /-- The frequency 0 is never stored (R25). -/
  hz_pos : s.freqValid = true → s.cfgHz ≠ 0
  /-- The index never passes the end (R29). -/
  idx_le : s.seqState = .busy → s.seqIdx ≤ s.uprog.length
  /-- A transfer runs only when both configuration commands have run (R205, R233). -/
  configured : s.seqState = .busy → s.seqOp.isTransfer = true → s.configured = true
  /-- Between commands the clock is at the configured idle level (R39), in `FAULTED` too (R137). -/
  clock_rest : s.seqState ≠ .busy → s.fmtValid = true → s.sck = .driven (cpol s.cfgMode)
  /-- Inside a command other than `CFGFMT` the clock is where its toggles so far have taken it (R163, R170, R173). -/
  clock_run : s.seqState = .busy → s.seqOp ≠ .cfgfmt → s.fmtValid = true →
    s.sck = .driven (clockAfter s.seqOp s.cfgMode s.tx s.seqIdx)
  /-- `CFGFMT` has driven the clock to the new idle level when its one micro-op is done (R150). -/
  clock_set : s.seqState = .busy → s.seqOp = .cfgfmt → s.seqIdx ≠ 0 → s.sck = .driven (cpol s.cfgMode)
  /-- After its first micro-op a quad write drives the lanes (R170). -/
  lanes_out : s.seqState = .busy → s.seqOp = .qwr → s.seqIdx ≠ 0 → s.qdir = .out
  /-- After its first micro-op a quad read does not drive the lanes (R173, R35). -/
  lanes_in : s.seqState = .busy → s.seqOp = .qrd → s.seqIdx ≠ 0 → s.qdir = .inp
  /-- Every sample of an `XFER` comes after a drive of `MOSI` (R83, R161). -/
  mosi_driven : s.seqState = .busy → s.seqOp = .xfer → s.seqIdx ≠ 0 → s.mosi.written = true
  /-- While a byte is received, the bits not yet sampled are 0 (R27). -/
  rx_clear : s.seqState = .busy → s.seqOp.returnsByte = true → s.rx &&& ~~~s.filled = 0
  /-- While `rst` is held the engine is idle, no latch is written, the lanes are inputs, and nothing has been emitted
  (R232). -/
  held : s.rstHeld = true → s.seqState = .idle ∧ s.sck.written = false ∧ s.mosi.written = false ∧
    s.qout.written = false ∧ s.qdir = .inp ∧ s.trace = []

/-- The hardware of this spec: no pad is shared, so no `XFER` is refused (R10, R11, R206). -/
def State.separatePads (s : State) : Prop := s.pins.laneAlias = false

/-- No reset is coming: `rst` is low at this and every later step. -/
def State.noReset (s : State) : Prop := ∀ b ∈ s.rstLine, b = false

end Sys2Proof.Machine
end

