-- ==== Sys2Proof/Certificates/Slice0/Obligations.lean ====
section
/-! DEFINITION. The statements for the provers. A state written as `{ s with … }` says at once what changes and that
every other field, the frame, keeps its value. `run k` is `k` steps of the machine. -/

open Sys2Proof Sys2Proof.Machine

/-! ### Encoding -/

/-- 30_encoding.md sections 2 and 5: no operand bit is dropped, for every instruction and every operand. -/
def Obligations.DecodeUndoesEncode : Prop :=
  ∀ i : Instr, decode (encode i) = .ok i

/-- 30_encoding.md sections 2, 3 and 5: a word has one meaning, and reserved bits are never ignored. -/
def Obligations.EncodeUndoesDecode : Prop :=
  ∀ (c : Code) (i : Instr), decode c = .ok i → encode i = c

/-- 30_encoding.md sections 2 and 3: the words that are commands are exactly those of an assigned opcode whose reserved
bits are all 0. -/
def Obligations.CommandWordsAreExactlyTheAssignedOnes : Prop :=
  ∀ w : CmdWord, (∃ i, decode (.cmd w) = .ok i) ↔ isCommandWord w

/-- 95_test_vectors.md section 2.1: words written out from the encodings decode to the commands they stand for, and
their refused neighbours do not. -/
def Obligations.SpecVectorWordsDecode : Prop :=
  decodeTableWord 40 0x1000000008 = some (.cfgfmt 8 0) ∧
  decodeTableWord 40 0x1000000308 = some (.cfgfmt 8 3) ∧
  decodeTableWord 40 0x1000000010 = some (.cfgfmt 16 0) ∧
  decodeTableWord 40 0x11000F4240 = some (.cfgfreq 1000000) ∧
  decodeTableWord 40 0x11FFFFFFFF = some (.cfgfreq 4294967295) ∧
  decodeTableWord 40 0x20000000A5 = some (.xfer 0xA5) ∧
  decodeTableWord 40 0x21000000FF = some (.qwr 0xFF) ∧
  decodeTableWord 40 0x2200000000 = some .qrd ∧
  decodeTableWord 40 0x0200000000 = none ∧
  decodeTableWord 40 0x1000000408 = none ∧
  decodeTableWord 40 0x2000000100 = none ∧
  decodeTableWord 40 0x2200000001 = none ∧
  decodeTableWord 40 0x2300000000 = none

/-- R103: the code of every micro-op, that no other 8-bit value is one, and that a micro-program holds nothing else. -/
def Obligations.MicroOpCodes : Prop :=
  encode .uWait = .uop 0x00 ∧
  (∀ b : Bit, encode (.uDriveMosi b) = .uop (0x10 ||| b.setWidth 8)) ∧
  (∀ i : BitVec 3, encode (.uSampleMiso i) = .uop (0x20 ||| i.setWidth 8)) ∧
  encode .uToggleSck = .uop 0x30 ∧
  (∀ b : Bit, encode (.uSetSck b) = .uop (0x40 ||| b.setWidth 8)) ∧
  encode (.uQdir .inp) = .uop 0x50 ∧ encode (.uQdir .out) = .uop 0x51 ∧
  (∀ n : Nibble, encode (.uDriveq n) = .uop (0x60 ||| n.setWidth 8)) ∧
  encode (.uSampleq .low) = .uop 0x70 ∧ encode (.uSampleq .high) = .uop 0x71 ∧
  (∀ u : Byte, (∃ i, decodeUop u = .ok i) → ∃ i, encode i = .uop u) ∧
  (∀ (op : Op) (mode : BitVec 2) (tx : Byte), ∀ i ∈ uprog op mode tx, ∃ u, encode i = .uop u)

/-! ### The step runs the instruction -/

/-- 40_sequencer_uops.md section 1, 30_encoding.md section 1: in IDLE with `rst` low, a presented word that decodes is
taken from the port and the step is the meaning of the command it decodes to. -/
def Obligations.StepRunsPresentedCommand : Prop :=
  ∀ (s : State) (w : CmdWord) (rest : List CmdWord) (i : Instr),
    s.seqState = .idle → s.rstNow = false → s.host = w :: rest → decode (.cmd w) = .ok i →
      step s = exec i { s with host := rest, rstLine := s.rstLine.tail, rstHeld := false }

/-- 40_sequencer_uops.md section 1: in BUSY with `rst` low, the step is the meaning of the micro-op at `SEQ.IDX`. -/
def Obligations.StepRunsCurrentMicroOp : Prop :=
  ∀ (s : State) (u : Instr),
    s.seqState = .busy → s.rstNow = false → (uprog s.seqOp s.cfgMode s.tx)[s.seqIdx]? = some u →
      step s = exec u { s with rstLine := s.rstLine.tail, rstHeld := false }

/-- R123: the completion step. What the model's own record `quadRun` becomes is left open here
(`QuadRunRecordsQuadCommands` says it). -/
def Obligations.CompletionStep : Prop :=
  ∀ s : State,
    s.seqState = .busy → s.rstNow = false → s.seqIdx = (uprog s.seqOp s.cfgMode s.tx).length →
      ∃ q, step s = .next { s with
        rstLine := s.rstLine.tail, rstHeld := false, seqState := .idle, quadRun := q,
        trace := .done (if s.seqOp = .xfer ∨ s.seqOp = .qrd then some s.rx else none) :: s.trace }

/-- The model's own record (log entry 13): set when a quad command completes, cleared by reset, else kept. -/
def Obligations.QuadRunRecordsQuadCommands : Prop :=
  ∀ s t : State, step s = .next t →
    t.quadRun = (!s.rstNow &&
      (s.quadRun || (decide (enabled s = .complete) && decide (s.seqOp = .qwr ∨ s.seqOp = .qrd))))

/-- The model's own placing of an instruction (log entry 6): the very next step takes exactly it. -/
def Obligations.PlacedInstructionIsTaken : Prop :=
  ∀ (s : State) (i : Instr),
    enabled (placeCode (encode i) s) = if (commandOp i).isSome then .accept i else .micro i

/-! ### The accept step, command by command -/

/-- 41_config.md section CFGFMT, 40_sequencer_uops.md section 1: a `CFGFMT` of width 8 in IDLE is accepted. -/
def Obligations.CfgfmtIsAccepted : Prop :=
  ∀ (s : State) (mode : BitVec 2), s.seqState = .idle →
    exec (.cfgfmt 8 mode) s = .next { s with
      cfgMode := mode, fmtValid := true, seqOp := .cfgfmt, seqIdx := 0, seqState := .busy,
      trace := .accept (0x10#8 ++ 0#22 ++ mode ++ 8#8) :: s.trace }

/-- R203: a `CFGFMT` of any other width faults `WidthUnsupported` and leaves everything else as it was. -/
def Obligations.CfgfmtOtherWidthFaults : Prop :=
  FaultCode.code .widthUnsupported = 2 ∧
  ∀ (s : State) (bits : Byte) (mode : BitVec 2), s.seqState = .idle → bits ≠ 8 →
    exec (.cfgfmt bits mode) s = .next { s with
      faultCode := .widthUnsupported, faultCmd := 0x10#8 ++ 0#22 ++ mode ++ bits, seqState := .faulted,
      trace := .fault .widthUnsupported (0x10#8 ++ 0#22 ++ mode ++ bits) :: s.trace }

/-- 41_config.md section CFGFREQ, 40_sequencer_uops.md section 1: a `CFGFREQ` above 0 in IDLE is accepted. -/
def Obligations.CfgfreqIsAccepted : Prop :=
  ∀ (s : State) (hz : BitVec 32), s.seqState = .idle → hz ≠ 0 →
    exec (.cfgfreq hz) s = .next { s with
      cfgHz := hz, freqValid := true, seqOp := .cfgfreq, seqIdx := 0, seqState := .busy,
      trace := .accept (0x11#8 ++ hz) :: s.trace }

/-- R204: `CFGFREQ 0` faults `FreqZero` and leaves everything else as it was. -/
def Obligations.CfgfreqZeroFaults : Prop :=
  FaultCode.code .freqZero = 3 ∧
  ∀ s : State, s.seqState = .idle →
    exec (.cfgfreq 0) s = .next { s with
      faultCode := .freqZero, faultCmd := 0x1100000000, seqState := .faulted,
      trace := .fault .freqZero 0x1100000000 :: s.trace }

/-- 42_single_wire.md section 1, 40_sequencer_uops.md section 1: a configured `XFER` in IDLE is accepted, unless pads are
shared and a quad command has completed. -/
def Obligations.XferIsAccepted : Prop :=
  ∀ (s : State) (v : Byte),
    s.seqState = .idle → s.fmtValid = true → s.freqValid = true → (s.pins.laneAlias = false ∨ s.quadRun = false) →
      exec (.xfer v) s = .next { s with
        tx := v, rx := 0, seqOp := .xfer, seqIdx := 0, seqState := .busy,
        trace := .accept (0x20#8 ++ 0#24 ++ v) :: s.trace }

/-- 43_quad.md section QWR, 40_sequencer_uops.md section 1: a configured `QWR` in IDLE is accepted; `RX` is untouched. -/
def Obligations.QwrIsAccepted : Prop :=
  ∀ (s : State) (v : Byte), s.seqState = .idle → s.fmtValid = true → s.freqValid = true →
    exec (.qwr v) s = .next { s with
      tx := v, seqOp := .qwr, seqIdx := 0, seqState := .busy,
      trace := .accept (0x21#8 ++ 0#24 ++ v) :: s.trace }

/-- 43_quad.md section QRD, 40_sequencer_uops.md section 1: a configured `QRD` in IDLE is accepted; `TX` is untouched. -/
def Obligations.QrdIsAccepted : Prop :=
  ∀ s : State, s.seqState = .idle → s.fmtValid = true → s.freqValid = true →
    exec .qrd s = .next { s with
      rx := 0, seqOp := .qrd, seqIdx := 0, seqState := .busy,
      trace := .accept 0x2200000000 :: s.trace }

/-- R205: a transfer in IDLE faults `NotConfigured` exactly when a configuration command is missing; no pin moves and
nothing but the fault record changes. -/
def Obligations.UnconfiguredTransferFaults : Prop :=
  FaultCode.code .notConfigured = 4 ∧
  ∀ (s : State) (v : Byte), s.seqState = .idle → s.fmtValid = false ∨ s.freqValid = false →
    (∀ i ∈ [Instr.xfer v, Instr.qwr v, Instr.qrd],
      exec i s = .next { s with
        faultCode := .notConfigured, faultCmd := commandWord i, seqState := .faulted,
        trace := .fault .notConfigured (commandWord i) :: s.trace })

/-- R206: `XFER` is refused where a lane shares a pad with a single-wire data pin and a quad command has completed since
reset; with separate pads it never is. -/
def Obligations.XferRefusedOnlyUnderSharedPads : Prop :=
  ∀ (s : State) (v : Byte), s.seqState = .idle → s.fmtValid = true → s.freqValid = true →
    (exec (.xfer v) s = .refused .directionInterleaved ↔ s.pins.laneAlias = true ∧ s.quadRun = true)

/-- 60_exceptions.md section 2, 30_encoding.md section 3: a presented word with an unassigned opcode, or with a reserved
bit set, faults `IllegalCommand` and has no other effect. That the faulting word has been taken from the port is DEDUCED
(log entry 14). -/
def Obligations.IllegalWordFaults : Prop :=
  FaultCode.code .illegalCommand = 1 ∧
  ∀ (s : State) (w : CmdWord) (rest : List CmdWord),
    s.seqState = .idle → s.rstNow = false → s.host = w :: rest → ¬ isCommandWord w →
      step s = .next { s with
        host := rest, rstLine := s.rstLine.tail, rstHeld := false, faultCode := .illegalCommand, faultCmd := w,
        seqState := .faulted, trace := .fault .illegalCommand w :: s.trace }

/-- 30_encoding.md section 1: a command presented while the engine is not IDLE waits; it is not taken from the port and
has no effect on the running command. That `exec` of a command there answers the unchanged state is the model's choice
(log entry 10). -/
def Obligations.CommandWaitsUntilIdle : Prop :=
  ∀ s : State, s.seqState ≠ .idle →
    (∀ i : Instr, (commandOp i).isSome = true → exec i s = .next s) ∧
    (∀ (t : State) (w : CmdWord), step s = .next t → t.host = s.host ∧ (s.rstNow = false →
      step { s with host := s.host ++ [w] } = .next { t with host := s.host ++ [w] }))

/-! ### The micro-ops -/

/-- 40_sequencer_uops.md section 2, U_WAIT: only the index moves; the event says so. -/
def Obligations.WaitChangesOnlyTheIndex : Prop :=
  ∀ s : State, s.seqState = .busy →
    exec .uWait s = .next { s with seqIdx := s.seqIdx + 1, trace := .uop .uWait .nothing :: s.trace }

/-- 40_sequencer_uops.md section 2, U_DRIVE_MOSI: `MOSI <- b`, whatever it held, also nothing. -/
def Obligations.DriveMosiWritesTheLatch : Prop :=
  ∀ (s : State) (b : Bit), s.seqState = .busy →
    exec (.uDriveMosi b) s = .next { s with
      mosi := { level := b, written := true }, seqIdx := s.seqIdx + 1,
      trace := .uop (.uDriveMosi b) .nothing :: s.trace }

/-- 40_sequencer_uops.md section 2, U_SAMPLE_MISO: one sample, ORed into `RX` at bit `i`; no pin changes. -/
def Obligations.SampleMisoAccumulates : Prop :=
  ∀ (s : State) (i : BitVec 3), s.seqState = .busy →
    exec (.uSampleMiso i) s = .next { s with
      rx := s.rx ||| ((pinReadMiso s).1.setWidth 8 <<< i.toNat), env := (pinReadMiso s).2, seqIdx := s.seqIdx + 1,
      trace := .uop (.uSampleMiso i) (.bit (pinReadMiso s).1) :: s.trace }

/-- 40_sequencer_uops.md section 2, U_TOGGLE_SCK: `SCK <- ~SCK`; in a sound state the latch it reads holds a level. For a
latch that does not (no sound state toggles one), the model complements the free level it shows (log entry 2). -/
def Obligations.ToggleComplementsTheClock : Prop :=
  (∀ s : State, s.seqState = .busy →
    exec .uToggleSck s = .next { s with
      sck := { level := ~~~(if s.sck.written then s.sck.level else Config.undefSck s.past), written := true },
      seqIdx := s.seqIdx + 1, trace := .uop .uToggleSck .nothing :: s.trace }) ∧
  (∀ s : State, Inv s → enabled s = .micro .uToggleSck → s.sck.written = true)

/-- 40_sequencer_uops.md section 2, U_SET_SCK: `SCK <- b`, also when it already holds `b`. -/
def Obligations.SetSckWritesTheLatch : Prop :=
  ∀ (s : State) (b : Bit), s.seqState = .busy →
    exec (.uSetSck b) s = .next { s with
      sck := { level := b, written := true }, seqIdx := s.seqIdx + 1,
      trace := .uop (.uSetSck b) .nothing :: s.trace }

/-- 40_sequencer_uops.md section 2, U_QDIR: the one direction of all four lanes; `QOUT` keeps its value. -/
def Obligations.QdirSetsTheSharedDirection : Prop :=
  ∀ (s : State) (d : Dir), s.seqState = .busy →
    exec (.uQdir d) s = .next { s with
      qdir := d, seqIdx := s.seqIdx + 1, trace := .uop (.uQdir d) .nothing :: s.trace }

/-- 40_sequencer_uops.md section 2, U_DRIVEQ: all four lane latches in one step. -/
def Obligations.DriveqWritesAllLanes : Prop :=
  ∀ (s : State) (n : Nibble), s.seqState = .busy →
    exec (.uDriveq n) s = .next { s with
      qout := { level := n, written := true }, seqIdx := s.seqIdx + 1,
      trace := .uop (.uDriveq n) .nothing :: s.trace }

/-- 40_sequencer_uops.md section 2, U_SAMPLEQ: four lane levels at once, ORed into the high or the low nibble of `RX`. -/
def Obligations.SampleqAccumulates : Prop :=
  ∀ (s : State) (h : Half), s.seqState = .busy →
    exec (.uSampleq h) s = .next { s with
      rx := s.rx ||| ((pinReadQ s).1.setWidth 8 <<< (if h = .high then 4 else 0)), env := (pinReadQ s).2,
      seqIdx := s.seqIdx + 1, trace := .uop (.uSampleq h) (.nibble (pinReadQ s).1) :: s.trace }

/-- 40_sequencer_uops.md section 1: outside BUSY the sequencer performs no micro-op. -/
def Obligations.NoMicroOpOutsideBusy : Prop :=
  ∀ (s : State) (i : Instr), s.seqState ≠ .busy → commandOp i = none → exec i s = .next s

/-- 40_sequencer_uops.md section 2, the corner cases of the two samplings: in a sound state the OR is an assignment. The
sampled positions of `RX` were 0 before, and the others keep their value. -/
def Obligations.SamplingIsAssignment : Prop :=
  ∀ s : State, Inv s →
    (∀ i : BitVec 3, enabled s = .micro (.uSampleMiso i) →
      s.rx.extractLsb' i.toNat 1 = 0 ∧
      ∃ t, step s = .next t ∧ t.rx.extractLsb' i.toNat 1 = (pinReadMiso (tick s)).1 ∧
        ∀ j : Nat, j < 8 → j ≠ i.toNat → t.rx.extractLsb' j 1 = s.rx.extractLsb' j 1) ∧
    (enabled s = .micro (.uSampleq .high) →
      ∃ t, step s = .next t ∧ t.rx = (pinReadQ (tick s)).1 ++ s.rx.extractLsb' 0 4 ∧ s.rx.extractLsb' 4 4 = 0) ∧
    (enabled s = .micro (.uSampleq .low) →
      ∃ t, step s = .next t ∧ t.rx = s.rx.extractLsb' 4 4 ++ (pinReadQ (tick s)).1 ∧ s.rx.extractLsb' 0 4 = 0)

/-- R83: under the loopback fixture every sample of `MISO` is the level of the `MOSI` latch, and at every sample of a
sound state that latch holds a level. -/
def Obligations.LoopbackMirrorsDataOut : Prop :=
  (∀ s : State, s.env = .loopback → s.mosi.written = true → pinReadMiso s = (s.mosi.level, .loopback)) ∧
  (∀ (s : State) (i : BitVec 3), Inv s → enabled s = .micro (.uSampleMiso i) → s.mosi.written = true)

/-! ### The micro-programs -/

/-- R136: lengths and counts. -/
def Obligations.MicroProgramCounts : Prop :=
  ∀ (mode : BitVec 2) (tx : Byte) (op : Op),
    (uprog op mode tx).length = (match op with | .cfgfmt => 1 | .cfgfreq => 0 | .xfer => 48 | .qwr => 11 | .qrd => 11) ∧
    (uprog op mode tx).count .uToggleSck =
      (match op with | .cfgfmt => 0 | .cfgfreq => 0 | .xfer => 16 | .qwr => 4 | .qrd => 4) ∧
    (uprog op mode tx).count .uWait =
      (match op with | .cfgfmt => 0 | .cfgfreq => 0 | .xfer => 16 | .qwr => 4 | .qrd => 4) ∧
    ((uprog op mode tx).filter fun u => match u with | .uDriveMosi _ | .uDriveq _ => true | _ => false).length =
      (match op with | .cfgfmt => 0 | .cfgfreq => 0 | .xfer => 8 | .qwr => 2 | .qrd => 0) ∧
    ((uprog op mode tx).filter fun u => match u with | .uSampleMiso _ | .uSampleq _ => true | _ => false).length =
      (match op with | .cfgfmt => 0 | .cfgfreq => 0 | .xfer => 8 | .qwr => 0 | .qrd => 2) ∧
    ((uprog op mode tx).filter fun u => match u with | .uQdir _ => true | _ => false).length =
      (match op with | .cfgfmt => 0 | .cfgfreq => 0 | .xfer => 0 | .qwr => 1 | .qrd => 1) ∧
    uprog .cfgfmt mode tx = [.uSetSck (mode.extractLsb' 1 1)]

/-- R253: nominal durations, counting waits only. -/
def Obligations.NominalDurations : Prop :=
  ∀ (mode : BitVec 2) (tx : Byte) (hz : BitVec 32), hz ≠ 0 →
    nominalDuration .xfer mode tx hz = 8 / (hz.toNat : ℚ) ∧
    nominalDuration .qwr mode tx hz = 2 / (hz.toNat : ℚ) ∧
    nominalDuration .qrd mode tx hz = 2 / (hz.toNat : ℚ) ∧
    nominalDuration .cfgfmt mode tx hz = 0 ∧
    nominalDuration .cfgfreq mode tx hz = 0 ∧
    countIn .uWait .xfer mode tx = 16 ∧ countIn .uWait .qwr mode tx = 4 ∧ countIn .uWait .qrd mode tx = 4 ∧
    countIn .uWait .cfgfmt mode tx = 0 ∧ countIn .uWait .cfgfreq mode tx = 0 ∧
    nominalDuration .xfer mode tx 1000000 = 8 / 1000000

/-! ### Whole-machine rules -/

/-- 10_state.md section 1, the column "written by": each element changes only at the instructions named there, and
`exec` never touches the host's side, the pin bindings or the earlier traces. -/
def Obligations.ElementsAreWrittenOnlyByTheirOwn : Prop :=
  ∀ (i : Instr) (s t : State), exec i s = .next t →
    (t.cfgMode ≠ s.cfgMode ∨ t.fmtValid ≠ s.fmtValid → ∃ bits mode, i = .cfgfmt bits mode) ∧
    (t.cfgHz ≠ s.cfgHz ∨ t.freqValid ≠ s.freqValid → ∃ hz, i = .cfgfreq hz) ∧
    (t.tx ≠ s.tx → ∃ v, i = .xfer v ∨ i = .qwr v) ∧
    (t.rx ≠ s.rx → (∃ v, i = .xfer v) ∨ i = .qrd ∨ (∃ n, i = .uSampleMiso n) ∨ ∃ h, i = .uSampleq h) ∧
    (t.seqState ≠ s.seqState ∨ t.seqOp ≠ s.seqOp ∨ t.faultCode ≠ s.faultCode ∨ t.faultCmd ≠ s.faultCmd →
      (commandOp i).isSome = true ∧ s.seqState = .idle) ∧
    (t.sck ≠ s.sck → i = .uToggleSck ∨ ∃ b, i = .uSetSck b) ∧
    (t.mosi ≠ s.mosi → ∃ b, i = .uDriveMosi b) ∧
    (t.qout ≠ s.qout → ∃ n, i = .uDriveq n) ∧
    (t.qdir ≠ s.qdir → ∃ d, i = .uQdir d) ∧
    (t.env ≠ s.env → (∃ n, i = .uSampleMiso n) ∨ ∃ h, i = .uSampleq h) ∧
    t.host = s.host ∧ t.rstLine = s.rstLine ∧ t.rstHeld = s.rstHeld ∧ t.pins = s.pins ∧ t.past = s.past ∧ t.quadRun = s.quadRun

/-- 40_sequencer_uops.md section 1 and 20_memory.md section 5: with `rst` low a step emits at most one event, and what
was emitted before stays. -/
def Obligations.TraceGrowsByAtMostOneEvent : Prop :=
  ∀ s t : State, s.rstNow = false → step s = .next t →
    t.past = s.past ∧ (t.trace = s.trace ∨ ∃ e, t.trace = e :: s.trace)

/-- 40_sequencer_uops.md section 1: in FAULTED no step of any kind is performed. That `step` answers a next state there,
with only the `rst` line moved on (and its level remembered, log entry 7), is the model's choice (log entry 9), and that `exec` answers the unchanged state too
(log entry 10). A step that leads into FAULTED is no step of a running command and moves no pin. -/
def Obligations.FaultedDoesNothing : Prop :=
  (∀ s : State, s.seqState = .faulted →
    (s.rstNow = false → step s = .next { s with rstLine := s.rstLine.tail, rstHeld := false }) ∧ ∀ i : Instr, exec i s = .next s) ∧
  (∀ s t : State, s.rstNow = false → step s = .next t → t.seqState = .faulted →
    s.seqState ≠ .busy ∧ t.sck = s.sck ∧ t.mosi = s.mosi ∧ t.qout = s.qout ∧ t.qdir = s.qdir)

/-- R209: the fault record is written at most once between resets, and only reset leaves FAULTED. -/
def Obligations.FaultRecordIsSticky : Prop :=
  ∀ s t : State, Inv s → s.faultCode ≠ .noFault → step s = .next t →
    if s.rstNow then t.seqState = .idle ∧ t.faultCode = .noFault
    else t.seqState = .faulted ∧ t.faultCode = s.faultCode ∧ t.faultCmd = s.faultCmd

/-- 40_sequencer_uops.md section 1 and 60_exceptions.md section 2: no fault is raised in BUSY; in a sound state the step
goes on. -/
def Obligations.NoFaultWhileBusy : Prop :=
  ∀ s : State, Inv s → s.seqState = .busy → s.rstNow = false →
    ∃ t, step s = .next t ∧ t.faultCode = s.faultCode ∧ t.faultCmd = s.faultCmd ∧ t.seqState ≠ .faulted

/-- 60_exceptions.md section 2: with separate pads a sound state always has a next state; the model neither stops nor
refuses (the step that changes nothing in IDLE and FAULTED is the model's, log entry 9). -/
def Obligations.SoundStatesAlwaysStep : Prop :=
  ∀ s : State, Inv s → s.separatePads → ∃ t, step s = .next t

/-- 40_sequencer_uops.md section 1: IDLE with nothing presented changes nothing (the model's quiet step, log entry 9). -/
def Obligations.IdleWithoutCommandChangesNothing : Prop :=
  ∀ s : State, s.seqState = .idle → s.host = [] → s.rstNow = false →
    step s = .next { s with rstLine := s.rstLine.tail, rstHeld := false }

/-- 10_state.md section 2, `CFG.HZ`: no pin level, no sample, no response and no fault depends on `CFG.HZ`. From a state
that differs only in `CFG.HZ` every step leads to a state that differs at most in `CFG.HZ`; unless the step is a reset or
the accept step of a `CFGFREQ`, which write it, that difference stays. -/
def Obligations.FrequencyDecidesNothing : Prop :=
  ∀ (s t : State) (hz : BitVec 32), step s = .next t →
    ∃ hz', step { s with cfgHz := hz } = .next { t with cfgHz := hz' } ∧
      (s.rstNow = false → (∀ n, enabled s ≠ .accept (.cfgfreq n)) → hz' = hz)

/-- 10_state.md section 7: a latch that no step has written shows the same level until it is first written. -/
def Obligations.UnwrittenLevelIsFixed : Prop :=
  ∀ s t : State, s.rstNow = false → step s = .next t →
    (t.sck.written = false → t.sckLevel = s.sckLevel) ∧
    (t.mosi.written = false → t.mosiLevel = s.mosiLevel) ∧
    (t.qout.written = false → t.qoutLevel = s.qoutLevel)

/-- 10_state.md section 7: what the pads show, for latches that have been written. The spec says it of separate pads; that
the views of the pads are the same on a wiring with shared pads is the model's (DEDUCED, log entry 12). -/
def Obligations.PadsShowTheLatches : Prop :=
  ∀ s : State,
    s.pad .miso = .notDriven ∧
    (s.sck.written = true → s.pad .sck = .driven s.sck.level) ∧
    (s.mosi.written = true → s.pad .mosi = .driven s.mosi.level) ∧
    (s.qdir = .inp → ∀ l : Fin 4, s.pad (.lane l) = .notDriven) ∧
    (s.qdir = .out → s.qout.written = true → ∀ l : Fin 4, s.pad (.lane l) = .driven (s.qout.level.extractLsb' l.val 1))

/-! ### Reset -/

/-- 10_state.md section 9: the values the spec gives for reset (not those the model names for its `undef` elements). -/
def Obligations.ResetHoldsTheSpecsValues : Prop :=
  State.reset.seqState = .idle ∧ State.reset.faultCode = .noFault ∧ State.reset.fmtValid = false ∧
  State.reset.freqValid = false ∧ State.reset.cfgBits = 8 ∧ State.reset.qdir = .inp ∧
  State.reset.sck.written = false ∧ State.reset.mosi.written = false ∧ State.reset.qout.written = false

/-- 70_reset_and_hazards.md section 1: with `rst` asserted any state steps to the reset values, whatever it was doing;
no `done` is produced. While `rst` is held for `n` further steps the output ports `sck_o`, `mosi_o` and `q_o` keep their
`undef` levels (free values, log entry 2) and `q_oe` is 0. -/
def Obligations.ResetFromAnyState : Prop :=
  (∀ s : State, s.rstNow = true →
    ∃ t, step s = .next t ∧ t.seqState = .idle ∧ t.faultCode = .noFault ∧ t.fmtValid = false ∧ t.freqValid = false ∧
      t.cfgBits = 8 ∧ t.qdir = .inp ∧ t.sck.written = false ∧ t.mosi.written = false ∧ t.qout.written = false ∧
      t.trace = [] ∧ t.host = s.host ∧ t.pins = s.pins) ∧
  ∀ (s : State) (n : Nat), (∀ k ≤ n, s.rstLine[k]? = some true) →
    ∃ t u, step s = .next t ∧ Host.Core.run core n t = .next u ∧
      u.sckPort = t.sckPort ∧ u.mosiPort = t.mosiPort ∧ u.qPort = t.qPort ∧ u.qOutputEnable = 0 ∧
      u.sck.written = false ∧ u.mosi.written = false ∧ u.qout.written = false

/-! ### Invariants -/

/-- The invariant holds after reset. -/
def Obligations.SoundAtReset : Prop := Inv State.reset

/-- Every step, of every state that meets the invariant, keeps it. -/
def Obligations.SoundnessIsKeptByEveryStep : Prop :=
  ∀ s t : State, Inv s → step s = .next t → Inv t

/-- R39: whenever the engine is IDLE and the format is valid, the clock is at the configured idle level. -/
def Obligations.ClockIsIdleBetweenCommands : Prop :=
  ∀ s t : State, Inv s → step s = .next t → t.seqState = .idle → t.fmtValid = true →
    t.sck = { level := t.cfgMode.extractLsb' 1 1, written := true }

/-- 10_state.md section 5: the engine never samples a lane it is driving, and never drives a lane latch with the lanes
as inputs. -/
def Obligations.LanesAreNeverSampledWhileDriven : Prop :=
  ∀ s : State, Inv s →
    (∀ h, enabled s = .micro (.uSampleq h) → s.qdir = .inp) ∧ (∀ n, enabled s = .micro (.uDriveq n) → s.qdir = .out)

/-! ### Whole commands -/

/-- 40_sequencer_uops.md section 1, 20_memory.md section 5, 70_reset_and_hazards.md section 4: a command that passes its
checks, presented to a sound idle engine that is not reset, plays exactly its micro-program, in order, and completes
after exactly one accept step, one step per micro-op and one completion step; every event of it follows the earlier
ones, and the next word is still on the port. -/
def Obligations.CommandRunsToCompletion : Prop :=
  ∀ (s : State) (i : Instr) (op : Op) (rest : List CmdWord),
    Inv s → s.seqState = .idle → s.noReset → (op = .xfer → s.interleaved = false) →
    commandOp i = some op → i.wellFormed = true → (op.isTransfer = true → s.configured = true) →
    s.host = commandWord i :: rest →
      ∃ t es, Host.Core.run core (op.microOps + 2) s = .next t ∧
        t.seqState = .idle ∧ t.host = rest ∧ t.faultCode = .noFault ∧
        t.trace = .done (if op.returnsByte then some t.rx else none) :: es ++ .accept (commandWord i) :: s.trace ∧
        es.reverse.map Event.microOp = (uprog op t.cfgMode t.tx).map some

/-- R164: with data-in wired to data-out, `XFER v` returns `v`, in every mode, and leaves the clock at the idle level. -/
def Obligations.LoopbackTransferReturnsTheByte : Prop :=
  ∀ (s : State) (v : Byte) (rest : List CmdWord),
    Inv s → s.seqState = .idle → s.noReset → s.interleaved = false → s.configured = true → s.env = .loopback →
    s.host = commandWord (.xfer v) :: rest →
      ∃ t, Host.Core.run core 50 s = .next t ∧ t.trace.head? = some (.done (some v)) ∧
        t.sck = { level := s.cfgMode.extractLsb' 1 1, written := true } ∧ t.cfgMode = s.cfgMode ∧ t.seqState = .idle

/-- R161, R162: whatever the environment answers, the response is `RX`, and `RX` is assembled from the eight samples alone, the
first the most significant; the byte sent never shows in it. `pulse i` is the events of bit `i`, oldest first, as the table
of R161 lists them by `CPHA`, which is `CFG.MODE[0]`: one sample and two edges of the clock, so one clock pulse. No event
stands between bits. In a sound state the clock is, at the sample, at the idle level for `CPHA = 0` and at the active level
for `CPHA = 1` (the last column of the table of R165). A scripted environment fixes the samples. -/
def Obligations.TransferAssemblesItsSamples : Prop :=
  ∀ (s : State) (v : Byte) (rest : List CmdWord),
    s.seqState = .idle → s.noReset → s.interleaved = false → s.configured = true →
    s.host = commandWord (.xfer v) :: rest →
      ∃ (t : State) (pulse : BitVec 3 → List Event) (b : BitVec 3 → Bit),
        Host.Core.run core 50 s = .next t ∧
        t.rx = b 7 ++ b 6 ++ b 5 ++ b 4 ++ b 3 ++ b 2 ++ b 1 ++ b 0 ∧
        t.trace = .done (some t.rx) ::
          (pulse 7 ++ pulse 6 ++ pulse 5 ++ pulse 4 ++ pulse 3 ++ pulse 2 ++ pulse 1 ++ pulse 0).reverse ++
          .accept (commandWord (.xfer v)) :: s.trace ∧
        (∀ i, (pulse i).filterMap Event.sampledBit = [(i, b i)] ∧ (pulse i).countP Event.isToggle = 2 ∧
          pulse i =
            if s.cfgMode.extractLsb' 0 1 = 0 then
              [.uop (.uDriveMosi (v.extractLsb' i.toNat 1)) .nothing, .uop (.uSampleMiso i) (.bit (b i)),
               .uop .uToggleSck .nothing, .uop .uWait .nothing, .uop .uToggleSck .nothing, .uop .uWait .nothing]
            else
              [.uop (.uDriveMosi (v.extractLsb' i.toNat 1)) .nothing, .uop .uToggleSck .nothing, .uop .uWait .nothing,
               .uop (.uSampleMiso i) (.bit (b i)), .uop .uToggleSck .nothing, .uop .uWait .nothing]) ∧
        (Inv s → ∀ i : BitVec 3, ∃ u,
          Host.Core.run core (6 * (7 - i.toNat) + if s.cfgMode.extractLsb' 0 1 = 0 then 2 else 4) s = .next u ∧
          enabled u = .micro (.uSampleMiso i) ∧
          u.sck = { level := s.cfgMode.extractLsb' 1 1 ^^^ s.cfgMode.extractLsb' 0 1, written := true }) ∧
        ∀ bs ns, s.env = .scripted bs ns → 8 ≤ bs.length →
          bs.take 8 = [b 7, b 6, b 5, b 4, b 3, b 2, b 1, b 0]

/-- 42_single_wire.md, what `XFER` leaves behind: the last bit on `MOSI`, the operand in `TX`, the clock where it was,
and everything of the quad path, the configuration and the pins untouched. -/
def Obligations.TransferLeavesBehind : Prop :=
  ∀ (s : State) (v : Byte) (rest : List CmdWord),
    Inv s → s.seqState = .idle → s.noReset → s.interleaved = false → s.configured = true →
    s.host = commandWord (.xfer v) :: rest →
      ∃ t, Host.Core.run core 50 s = .next t ∧ t.mosi = { level := v.extractLsb' 0 1, written := true } ∧ t.tx = v ∧
        t.trace.head? = some (.done (some t.rx)) ∧ t.sck = s.sck ∧ t.qdir = s.qdir ∧ t.qout = s.qout ∧
        t.cfgMode = s.cfgMode ∧ t.cfgHz = s.cfgHz ∧ t.fmtValid = s.fmtValid ∧ t.freqValid = s.freqValid ∧
        t.faultCode = s.faultCode ∧ t.faultCmd = s.faultCmd ∧ t.pins = s.pins

/-- R176: a monitor on the lanes sees the upper nibble in the first clock pulse and the lower nibble in the second; the
lanes hold each from before its leading edge to after its last wait, driven throughout. `k` counts steps from the
accept step on. A quad monitor that reads once per pulse, at either edge or inside, has over the whole command recorded
exactly two readings, the upper nibble and then the lower, lane `L` with bit `L` of it. What the monitor reads at the pads
is said of separate pads, as the rule's derivation assumes. -/
def Obligations.QuadWriteSeenByAMonitor : Prop :=
  ∀ (s : State) (v : Byte) (rest : List CmdWord),
    Inv s → s.seqState = .idle → s.noReset → s.configured = true → s.host = commandWord (.qwr v) :: rest →
      (∀ k, 3 ≤ k → k ≤ 13 →
        ∃ t, Host.Core.run core k s = .next t ∧ t.qdir = .out ∧
          t.qout = { level := if k ≤ 7 then v.extractLsb' 4 4 else v.extractLsb' 0 4, written := true } ∧
          (s.separatePads →
            t.monitor = (if k = 4 ∨ k = 5 then some (v.extractLsb' 4 4)
              else if k = 9 ∨ k = 10 then some (v.extractLsb' 0 4) else none))) ∧
      (s.separatePads → ∀ p : PulsePoint, quadMonitor p 13 s =
        [[.driven (v.extractLsb' 4 1), .driven (v.extractLsb' 5 1), .driven (v.extractLsb' 6 1), .driven (v.extractLsb' 7 1)],
         [.driven (v.extractLsb' 0 1), .driven (v.extractLsb' 1 1), .driven (v.extractLsb' 2 1), .driven (v.extractLsb' 3 1)]])

/-- 43_quad.md section QWR: what `QWR` leaves behind. -/
def Obligations.QuadWriteLeavesBehind : Prop :=
  ∀ (s : State) (v : Byte) (rest : List CmdWord),
    Inv s → s.seqState = .idle → s.noReset → s.configured = true → s.host = commandWord (.qwr v) :: rest →
      ∃ t, Host.Core.run core 13 s = .next t ∧ t.trace.head? = some (.done none) ∧ t.tx = v ∧ t.qdir = .out ∧
        t.qout = { level := v.extractLsb' 0 4, written := true } ∧ t.sck = s.sck ∧ t.rx = s.rx ∧ t.mosi = s.mosi ∧
        t.cfgMode = s.cfgMode ∧ t.cfgHz = s.cfgHz ∧ t.fmtValid = s.fmtValid ∧ t.freqValid = s.freqValid ∧
        t.env = s.env ∧ t.faultCode = s.faultCode ∧ t.pins = s.pins

/-- R177: if the environment answers the first lane sample with `a` and the second with `b`, `QRD` returns
`(a << 4) | b`; a scripted environment fixes both. Beside that the lanes end as inputs, the lane latches, `TX`, `MOSI`
and the clock as they were. -/
def Obligations.QuadReadAgainstAFixture : Prop :=
  ∀ (s : State) (rest : List CmdWord),
    Inv s → s.seqState = .idle → s.noReset → s.configured = true → s.host = commandWord .qrd :: rest →
      ∃ (t : State) (a b : Nibble), Host.Core.run core 13 s = .next t ∧
        t.trace =
          [.done (some ((a.setWidth 8 <<< 4) ||| b.setWidth 8)),
           .uop .uWait .nothing, .uop .uToggleSck .nothing, .uop .uWait .nothing, .uop (.uSampleq .low) (.nibble b),
           .uop .uToggleSck .nothing,
           .uop .uWait .nothing, .uop .uToggleSck .nothing, .uop .uWait .nothing, .uop (.uSampleq .high) (.nibble a),
           .uop .uToggleSck .nothing,
           .uop (.uQdir .inp) .nothing, .accept 0x2200000000] ++ s.trace ∧
        (∀ bs x y ns, s.env = .scripted bs (x :: y :: ns) → a = x ∧ b = y ∧ t.env = .scripted bs ns) ∧
        t.qdir = .inp ∧ t.qout = s.qout ∧ t.tx = s.tx ∧ t.mosi = s.mosi ∧ t.sck = s.sck ∧
        t.cfgMode = s.cfgMode ∧ t.cfgHz = s.cfgHz ∧ t.fmtValid = s.fmtValid ∧ t.freqValid = s.freqValid ∧
        t.faultCode = s.faultCode

/-- R153: a second `CFGFMT 8, m` leaves every element equal, adds exactly its three events, and no pad changes level. -/
def Obligations.ConfigureFormatIsIdempotent : Prop :=
  ∀ (s : State) (mode : BitVec 2) (rest : List CmdWord),
    s.seqState = .idle → s.noReset →
    s.host = commandWord (.cfgfmt 8 mode) :: commandWord (.cfgfmt 8 mode) :: rest →
      ∃ t, Host.Core.run core 3 s = .next t ∧ t.cfgMode = mode ∧ t.fmtValid = true ∧
        t.sck = { level := mode.extractLsb' 1 1, written := true } ∧
        ∃ u, Host.Core.run core 3 t = .next u ∧
          u = { t with
            host := rest, rstLine := t.rstLine.drop 3,
            trace := .done none :: .uop (.uSetSck (mode.extractLsb' 1 1)) .nothing ::
              .accept (commandWord (.cfgfmt 8 mode)) :: t.trace } ∧
          ∀ h, u.pad h = t.pad h

/-- 41_config.md section CFGFREQ: the whole command touches no pin and only the frequency and its valid bit. -/
def Obligations.ConfigureFrequencyTouchesNoPin : Prop :=
  ∀ (s : State) (hz : BitVec 32) (rest : List CmdWord),
    s.seqState = .idle → s.noReset → hz ≠ 0 → s.host = commandWord (.cfgfreq hz) :: rest →
      Host.Core.run core 2 s = .next { s with
        cfgHz := hz, freqValid := true, seqOp := .cfgfreq, seqIdx := 0, host := rest, rstLine := s.rstLine.drop 2,
        rstHeld := false, trace := .done none :: .accept (commandWord (.cfgfreq hz)) :: s.trace }

/-! ### The host's side -/

/-- 44_framer_interface.md: the command words of every macro, high address byte first, one extra quad read before the
payload; the mode-selector bytes, as numbers, the values of the mode register as operands of `WRMR` and an I/O-mode byte
alone; that each macro is one transaction, chip-select around nothing but commands; that the writing macros keep no
response; and that the engine, from a sound configured idle state, runs each
reading macro to completions of which the macro keeps the register value, or the `n` payload bytes. Separate pads, so
that no `XFER` is refused. -/
def Obligations.FramerWords : Prop :=
  ∀ (a : BitVec 16) (data : List Byte) (n : Nat) (m dummy : Byte),
    (hostWords (wrmr m) = [0x2000000001, 0x20#8 ++ 0#24 ++ m] ∧
      hostWords (write a data) =
        0x2000000002#40 :: (0x20#8 ++ 0#24 ++ a.extractLsb' 8 8) :: (0x20#8 ++ 0#24 ++ a.extractLsb' 0 8) ::
          data.map (fun d => 0x20#8 ++ 0#24 ++ d) ∧
      hostWords (rdmr dummy) = [0x2000000005, 0x20#8 ++ 0#24 ++ dummy] ∧
      hostWords (read a n dummy) =
        0x2000000003#40 :: (0x20#8 ++ 0#24 ++ a.extractLsb' 8 8) :: (0x20#8 ++ 0#24 ++ a.extractLsb' 0 8) ::
          List.replicate n (0x20#8 ++ 0#24 ++ dummy) ∧
      hostWords (qwrite a data) =
        0x2100000002#40 :: (0x21#8 ++ 0#24 ++ a.extractLsb' 8 8) :: (0x21#8 ++ 0#24 ++ a.extractLsb' 0 8) ::
          data.map (fun d => 0x21#8 ++ 0#24 ++ d) ∧
      hostWords (qread a n) =
        0x2100000003#40 :: (0x21#8 ++ 0#24 ++ a.extractLsb' 8 8) :: (0x21#8 ++ 0#24 ++ a.extractLsb' 0 8) ::
          0x2200000000#40 :: List.replicate n 0x2200000000#40 ∧
      hostWords (qwrmr m) = [0x2100000001, 0x21#8 ++ 0#24 ++ m] ∧
      hostWords qrdmr = [0x2100000005, 0x2200000000] ∧
      hostWords (setChipMode .byteMode) = [0x2000000001, 0x2000000000] ∧
      hostWords (setChipMode .sequentialMode) = [0x2000000001, 0x2000000040] ∧
      hostWords (setChipMode .pageMode) = [0x2000000001, 0x2000000080] ∧
      hostWords (setChipIo .singleWire .enterDual) = [0x200000003B] ∧
      hostWords (setChipIo .singleWire .enterQuad) = [0x2000000038] ∧
      hostWords (setChipIo .singleWire .exitToStandard) = [0x20000000FF] ∧
      hostWords (setChipIo .quad .enterDual) = [0x210000003B] ∧
      hostWords (setChipIo .quad .enterQuad) = [0x2100000038] ∧
      hostWords (setChipIo .quad .exitToStandard) = [0x21000000FF]) ∧
    (∀ (mode : ChipMode) (via : SendPrimitive) (io : ChipIo),
      ∀ p ∈ [wrmr m, write a data, rdmr dummy, read a n dummy, qwrite a data, qread a n, qwrmr m, qrdmr, setChipMode mode,
          setChipIo via io],
        ∃ body, p = .csAssert :: body ++ [.csDeassert] ∧ ∀ l ∈ body, l.command.isSome = true) ∧
    (∀ rs : List (Option Byte), received (wrmr m) rs = [] ∧ received (write a data) rs = [] ∧
      received (qwrite a data) rs = [] ∧ received (qwrmr m) rs = []) ∧
    ∀ (s : State) (rest : List CmdWord),
      Inv s → s.seqState = .idle → s.noReset → s.configured = true → s.separatePads →
        (s.host = hostWords (rdmr dummy) ++ rest →
          ∃ t r v, Host.Core.run core 100 s = .next t ∧ t.seqState = .idle ∧ t.host = rest ∧
            completionsSince s t = [some r, some v] ∧ programResult (rdmr dummy) s t = [v]) ∧
        (s.host = hostWords (read a n dummy) ++ rest →
          ∃ t r0 r1 r2 ds, Host.Core.run core (150 + 50 * n) s = .next t ∧ t.seqState = .idle ∧ t.host = rest ∧
            ds.length = n ∧ completionsSince s t = some r0 :: some r1 :: some r2 :: ds.map some ∧
            programResult (read a n dummy) s t = ds) ∧
        (s.host = hostWords qrdmr ++ rest →
          ∃ t v, Host.Core.run core 26 s = .next t ∧ t.seqState = .idle ∧ t.host = rest ∧
            completionsSince s t = [none, some v] ∧ programResult qrdmr s t = [v]) ∧
        (s.host = hostWords (qread a n) ++ rest →
          ∃ t x ds, Host.Core.run core (52 + 13 * n) s = .next t ∧ t.seqState = .idle ∧ t.host = rest ∧
            ds.length = n ∧ completionsSince s t = none :: none :: none :: some x :: ds.map some ∧
            programResult (qread a n) s t = ds)
end

