-- ==== Sys2Proof/Laws/Encode.lean ====
section
/-! SUPPORT. The fields of the encoded words, and a word as its fields: what the decoder finds where the encoder puts it
(30_encoding.md R91 to R97). -/

namespace Sys2Proof

/-- A command word is its opcode, the 22 bits above the mode, the mode and the low byte. -/
theorem cmdWord_eq_fields (w : CmdWord) :
    w.extractLsb' 32 8 ++ w.extractLsb' 10 22 ++ w.extractLsb' 8 2 ++ w.extractLsb' 0 8 = w := by
  apply BitVec.eq_of_getLsbD_eq
  intro j hj
  simp only [BitVec.getLsbD_append, BitVec.getLsbD_extractLsb']
  interval_cases j <;> simp

/-- A command word is its opcode, the 24 bits above the low byte, and the low byte. -/
theorem cmdWord_eq_byte_fields (w : CmdWord) :
    w.extractLsb' 32 8 ++ w.extractLsb' 8 24 ++ w.extractLsb' 0 8 = w := by
  apply BitVec.eq_of_getLsbD_eq
  intro j hj
  simp only [BitVec.getLsbD_append, BitVec.getLsbD_extractLsb']
  interval_cases j <;> simp

/-- A command word is its opcode and its argument. -/
theorem cmdWord_eq_opcode_arg (w : CmdWord) : opcodeField w ++ argField w = w := by
  unfold opcodeField argField
  apply BitVec.eq_of_getLsbD_eq
  intro j hj
  simp only [BitVec.getLsbD_append, BitVec.getLsbD_extractLsb']
  interval_cases j <;> simp

theorem argField_extract_high22 (w : CmdWord) : (argField w).extractLsb' 10 22 = w.extractLsb' 10 22 := by
  unfold argField
  apply BitVec.eq_of_getLsbD_eq
  intro j hj
  simp only [BitVec.getLsbD_extractLsb']
  interval_cases j <;> simp

theorem argField_extract_high24 (w : CmdWord) : (argField w).extractLsb' 8 24 = w.extractLsb' 8 24 := by
  unfold argField
  apply BitVec.eq_of_getLsbD_eq
  intro j hj
  simp only [BitVec.getLsbD_extractLsb']
  interval_cases j <;> simp

theorem argField_extract_mode (w : CmdWord) : (argField w).extractLsb' 8 2 = w.extractLsb' 8 2 := by
  unfold argField
  apply BitVec.eq_of_getLsbD_eq
  intro j hj
  simp only [BitVec.getLsbD_extractLsb']
  interval_cases j <;> simp

theorem argField_extract_byte (w : CmdWord) : (argField w).extractLsb' 0 8 = w.extractLsb' 0 8 := by
  unfold argField
  apply BitVec.eq_of_getLsbD_eq
  intro j hj
  simp only [BitVec.getLsbD_extractLsb']
  interval_cases j <;> simp

/-! ### The fields of a word put together -/

section
variable (o : Byte) (r22 : BitVec 22) (r24 : BitVec 24) (m : BitVec 2) (b : Byte) (a : BitVec 32)

theorem extract_opcode_of_fields : (o ++ r22 ++ m ++ b).extractLsb' 32 8 = o := by
  apply BitVec.eq_of_getLsbD_eq
  intro j hj
  simp only [BitVec.getLsbD_extractLsb', BitVec.getLsbD_append]
  interval_cases j <;> simp

theorem extract_reserved_of_fields : (o ++ r22 ++ m ++ b).extractLsb' 10 22 = r22 := by
  apply BitVec.eq_of_getLsbD_eq
  intro j hj
  simp only [BitVec.getLsbD_extractLsb', BitVec.getLsbD_append]
  interval_cases j <;> simp

theorem extract_mode_of_fields : (o ++ r22 ++ m ++ b).extractLsb' 8 2 = m := by
  apply BitVec.eq_of_getLsbD_eq
  intro j hj
  simp only [BitVec.getLsbD_extractLsb', BitVec.getLsbD_append]
  interval_cases j <;> simp

theorem extract_low_of_fields : (o ++ r22 ++ m ++ b).extractLsb' 0 8 = b := by
  apply BitVec.eq_of_getLsbD_eq
  intro j hj
  simp only [BitVec.getLsbD_extractLsb', BitVec.getLsbD_append]
  interval_cases j <;> simp

theorem extract_opcode_of_byte_fields : (o ++ r24 ++ b).extractLsb' 32 8 = o := by
  apply BitVec.eq_of_getLsbD_eq
  intro j hj
  simp only [BitVec.getLsbD_extractLsb', BitVec.getLsbD_append]
  interval_cases j <;> simp

theorem extract_reserved_of_byte_fields : (o ++ r24 ++ b).extractLsb' 8 24 = r24 := by
  apply BitVec.eq_of_getLsbD_eq
  intro j hj
  simp only [BitVec.getLsbD_extractLsb', BitVec.getLsbD_append]
  interval_cases j <;> simp

theorem extract_low_of_byte_fields : (o ++ r24 ++ b).extractLsb' 0 8 = b := by
  apply BitVec.eq_of_getLsbD_eq
  intro j hj
  simp only [BitVec.getLsbD_extractLsb', BitVec.getLsbD_append]
  interval_cases j <;> simp

theorem extract_opcode_of_opcode_arg : (o ++ a).extractLsb' 32 8 = o := by
  apply BitVec.eq_of_getLsbD_eq
  intro j hj
  simp only [BitVec.getLsbD_extractLsb', BitVec.getLsbD_append]
  interval_cases j <;> simp

theorem extract_arg_of_opcode_arg : (o ++ a).extractLsb' 0 32 = a := by
  apply BitVec.eq_of_getLsbD_eq
  intro j hj
  simp only [BitVec.getLsbD_extractLsb', BitVec.getLsbD_append]
  interval_cases j <;> simp

end

end Sys2Proof
end

