-- ==== Sys2Proof/Laws/Framer.lean ====
section
/-! SUPPORT. What a host program presents and what it keeps of its commands' completions, line by line. -/

namespace Sys2Proof.Machine

/-! ### The words a program presents -/

theorem hostWords_append (p q : List HostLine) : hostWords (p ++ q) = hostWords p ++ hostWords q := by
  simp [hostWords]

theorem hostWords_transaction (body : List HostLine) : hostWords (transaction body) = hostWords body := by
  simp [hostWords, transaction, HostLine.command, List.filterMap_cons]

theorem hostWords_sends (cmds : List Instr) : hostWords (sends cmds) = cmds.map commandWord := by
  induction cmds with
  | nil => rfl
  | cons c cs ih => simpa [hostWords, sends, HostLine.command] using ih

theorem hostWords_replicate_receive (n : Nat) (c : Instr) :
    hostWords (List.replicate n (.receive c)) = List.replicate n (commandWord c) := by
  induction n with
  | zero => rfl
  | succ n ih => simpa [hostWords, List.replicate_succ, HostLine.command] using ih

/-! ### What a program keeps -/

theorem received_transaction (body : List HostLine) (rs : List (Option Byte)) :
    received (transaction body) rs = received (body ++ [.csDeassert]) rs := rfl

/-- Discarding lines drop one completion each. -/
theorem received_sends_append (cmds : List Instr) (ls : List HostLine) (rs : List (Option Byte)) :
    received (sends cmds ++ ls) rs = received ls (rs.drop cmds.length) := by
  induction cmds generalizing rs with
  | nil => rfl
  | cons c cs ih =>
    have h := ih rs.tail
    simp only [List.drop_tail] at h
    exact h

/-- `n` keeping lines keep `n` responses. -/
theorem received_replicate_receive_append (c : Instr) (ls : List HostLine) (ds : List Byte) (rs : List (Option Byte)) :
    received (List.replicate ds.length (.receive c) ++ ls) (ds.map some ++ rs) = ds ++ received ls rs := by
  induction ds with
  | nil => rfl
  | cons d ds ih => simp [List.replicate_succ, received, ih]

/-! ### Completions -/

/-- What is new in a trace is what the completions are read from. -/
theorem completionsSince_of_trace {s t : State} {new : List Event} (h : t.trace = new ++ s.trace) :
    completionsSince s t = new.reverse.filterMap Event.completion := by
  simp [completionsSince, h]

end Sys2Proof.Machine
end

