-- ==== Sys2Proof/Laws/State.lean ====
section
/-! SUPPORT. One lemma per field per update, true by rfl: what each shared operation writes and what it leaves. -/

namespace Sys2Proof.Machine

/-! ### emit -/

@[simp] theorem emit_cfgMode (e : Event) (s : State) : (emit e s).cfgMode = s.cfgMode := rfl
@[simp] theorem emit_fmtValid (e : Event) (s : State) : (emit e s).fmtValid = s.fmtValid := rfl
@[simp] theorem emit_cfgHz (e : Event) (s : State) : (emit e s).cfgHz = s.cfgHz := rfl
@[simp] theorem emit_freqValid (e : Event) (s : State) : (emit e s).freqValid = s.freqValid := rfl
@[simp] theorem emit_tx (e : Event) (s : State) : (emit e s).tx = s.tx := rfl
@[simp] theorem emit_rx (e : Event) (s : State) : (emit e s).rx = s.rx := rfl
@[simp] theorem emit_seqState (e : Event) (s : State) : (emit e s).seqState = s.seqState := rfl
@[simp] theorem emit_seqOp (e : Event) (s : State) : (emit e s).seqOp = s.seqOp := rfl
@[simp] theorem emit_seqIdx (e : Event) (s : State) : (emit e s).seqIdx = s.seqIdx := rfl
@[simp] theorem emit_faultCode (e : Event) (s : State) : (emit e s).faultCode = s.faultCode := rfl
@[simp] theorem emit_faultCmd (e : Event) (s : State) : (emit e s).faultCmd = s.faultCmd := rfl
@[simp] theorem emit_sck (e : Event) (s : State) : (emit e s).sck = s.sck := rfl
@[simp] theorem emit_mosi (e : Event) (s : State) : (emit e s).mosi = s.mosi := rfl
@[simp] theorem emit_qout (e : Event) (s : State) : (emit e s).qout = s.qout := rfl
@[simp] theorem emit_qdir (e : Event) (s : State) : (emit e s).qdir = s.qdir := rfl
@[simp] theorem emit_quadRun (e : Event) (s : State) : (emit e s).quadRun = s.quadRun := rfl
@[simp] theorem emit_trace (e : Event) (s : State) : (emit e s).trace = e :: s.trace := rfl
@[simp] theorem emit_past (e : Event) (s : State) : (emit e s).past = s.past := rfl
@[simp] theorem emit_host (e : Event) (s : State) : (emit e s).host = s.host := rfl
@[simp] theorem emit_rstLine (e : Event) (s : State) : (emit e s).rstLine = s.rstLine := rfl
@[simp] theorem emit_rstHeld (e : Event) (s : State) : (emit e s).rstHeld = s.rstHeld := rfl
@[simp] theorem emit_env (e : Event) (s : State) : (emit e s).env = s.env := rfl
@[simp] theorem emit_pins (e : Event) (s : State) : (emit e s).pins = s.pins := rfl

/-! ### tick -/

@[simp] theorem tick_cfgMode (s : State) : (tick s).cfgMode = s.cfgMode := rfl
@[simp] theorem tick_fmtValid (s : State) : (tick s).fmtValid = s.fmtValid := rfl
@[simp] theorem tick_cfgHz (s : State) : (tick s).cfgHz = s.cfgHz := rfl
@[simp] theorem tick_freqValid (s : State) : (tick s).freqValid = s.freqValid := rfl
@[simp] theorem tick_tx (s : State) : (tick s).tx = s.tx := rfl
@[simp] theorem tick_rx (s : State) : (tick s).rx = s.rx := rfl
@[simp] theorem tick_seqState (s : State) : (tick s).seqState = s.seqState := rfl
@[simp] theorem tick_seqOp (s : State) : (tick s).seqOp = s.seqOp := rfl
@[simp] theorem tick_seqIdx (s : State) : (tick s).seqIdx = s.seqIdx := rfl
@[simp] theorem tick_faultCode (s : State) : (tick s).faultCode = s.faultCode := rfl
@[simp] theorem tick_faultCmd (s : State) : (tick s).faultCmd = s.faultCmd := rfl
@[simp] theorem tick_sck (s : State) : (tick s).sck = s.sck := rfl
@[simp] theorem tick_mosi (s : State) : (tick s).mosi = s.mosi := rfl
@[simp] theorem tick_qout (s : State) : (tick s).qout = s.qout := rfl
@[simp] theorem tick_qdir (s : State) : (tick s).qdir = s.qdir := rfl
@[simp] theorem tick_quadRun (s : State) : (tick s).quadRun = s.quadRun := rfl
@[simp] theorem tick_trace (s : State) : (tick s).trace = s.trace := rfl
@[simp] theorem tick_past (s : State) : (tick s).past = s.past := rfl
@[simp] theorem tick_host (s : State) : (tick s).host = s.host := rfl
@[simp] theorem tick_rstLine (s : State) : (tick s).rstLine = s.rstLine.tail := rfl
@[simp] theorem tick_rstHeld (s : State) : (tick s).rstHeld = s.rstNow := rfl
@[simp] theorem tick_env (s : State) : (tick s).env = s.env := rfl
@[simp] theorem tick_pins (s : State) : (tick s).pins = s.pins := rfl

/-- With `rst` low a step finds the engine out of reset. -/
theorem tick_of_low {s : State} (h : s.rstNow = false) :
    tick s = { s with rstLine := s.rstLine.tail, rstHeld := false } := by rw [← h]; rfl

/-! ### popHost -/

@[simp] theorem popHost_cfgMode (s : State) : (popHost s).cfgMode = s.cfgMode := rfl
@[simp] theorem popHost_fmtValid (s : State) : (popHost s).fmtValid = s.fmtValid := rfl
@[simp] theorem popHost_cfgHz (s : State) : (popHost s).cfgHz = s.cfgHz := rfl
@[simp] theorem popHost_freqValid (s : State) : (popHost s).freqValid = s.freqValid := rfl
@[simp] theorem popHost_tx (s : State) : (popHost s).tx = s.tx := rfl
@[simp] theorem popHost_rx (s : State) : (popHost s).rx = s.rx := rfl
@[simp] theorem popHost_seqState (s : State) : (popHost s).seqState = s.seqState := rfl
@[simp] theorem popHost_seqOp (s : State) : (popHost s).seqOp = s.seqOp := rfl
@[simp] theorem popHost_seqIdx (s : State) : (popHost s).seqIdx = s.seqIdx := rfl
@[simp] theorem popHost_faultCode (s : State) : (popHost s).faultCode = s.faultCode := rfl
@[simp] theorem popHost_faultCmd (s : State) : (popHost s).faultCmd = s.faultCmd := rfl
@[simp] theorem popHost_sck (s : State) : (popHost s).sck = s.sck := rfl
@[simp] theorem popHost_mosi (s : State) : (popHost s).mosi = s.mosi := rfl
@[simp] theorem popHost_qout (s : State) : (popHost s).qout = s.qout := rfl
@[simp] theorem popHost_qdir (s : State) : (popHost s).qdir = s.qdir := rfl
@[simp] theorem popHost_quadRun (s : State) : (popHost s).quadRun = s.quadRun := rfl
@[simp] theorem popHost_trace (s : State) : (popHost s).trace = s.trace := rfl
@[simp] theorem popHost_past (s : State) : (popHost s).past = s.past := rfl
@[simp] theorem popHost_host (s : State) : (popHost s).host = s.host.tail := rfl
@[simp] theorem popHost_rstLine (s : State) : (popHost s).rstLine = s.rstLine := rfl
@[simp] theorem popHost_rstHeld (s : State) : (popHost s).rstHeld = s.rstHeld := rfl
@[simp] theorem popHost_env (s : State) : (popHost s).env = s.env := rfl
@[simp] theorem popHost_pins (s : State) : (popHost s).pins = s.pins := rfl

/-! ### pinWriteSck -/

@[simp] theorem pinWriteSck_cfgMode (b : Bit) (s : State) : (pinWriteSck b s).cfgMode = s.cfgMode := rfl
@[simp] theorem pinWriteSck_fmtValid (b : Bit) (s : State) : (pinWriteSck b s).fmtValid = s.fmtValid := rfl
@[simp] theorem pinWriteSck_cfgHz (b : Bit) (s : State) : (pinWriteSck b s).cfgHz = s.cfgHz := rfl
@[simp] theorem pinWriteSck_freqValid (b : Bit) (s : State) : (pinWriteSck b s).freqValid = s.freqValid := rfl
@[simp] theorem pinWriteSck_tx (b : Bit) (s : State) : (pinWriteSck b s).tx = s.tx := rfl
@[simp] theorem pinWriteSck_rx (b : Bit) (s : State) : (pinWriteSck b s).rx = s.rx := rfl
@[simp] theorem pinWriteSck_seqState (b : Bit) (s : State) : (pinWriteSck b s).seqState = s.seqState := rfl
@[simp] theorem pinWriteSck_seqOp (b : Bit) (s : State) : (pinWriteSck b s).seqOp = s.seqOp := rfl
@[simp] theorem pinWriteSck_seqIdx (b : Bit) (s : State) : (pinWriteSck b s).seqIdx = s.seqIdx := rfl
@[simp] theorem pinWriteSck_faultCode (b : Bit) (s : State) : (pinWriteSck b s).faultCode = s.faultCode := rfl
@[simp] theorem pinWriteSck_faultCmd (b : Bit) (s : State) : (pinWriteSck b s).faultCmd = s.faultCmd := rfl
@[simp] theorem pinWriteSck_sck (b : Bit) (s : State) : (pinWriteSck b s).sck = .driven b := rfl
@[simp] theorem pinWriteSck_mosi (b : Bit) (s : State) : (pinWriteSck b s).mosi = s.mosi := rfl
@[simp] theorem pinWriteSck_qout (b : Bit) (s : State) : (pinWriteSck b s).qout = s.qout := rfl
@[simp] theorem pinWriteSck_qdir (b : Bit) (s : State) : (pinWriteSck b s).qdir = s.qdir := rfl
@[simp] theorem pinWriteSck_quadRun (b : Bit) (s : State) : (pinWriteSck b s).quadRun = s.quadRun := rfl
@[simp] theorem pinWriteSck_trace (b : Bit) (s : State) : (pinWriteSck b s).trace = s.trace := rfl
@[simp] theorem pinWriteSck_past (b : Bit) (s : State) : (pinWriteSck b s).past = s.past := rfl
@[simp] theorem pinWriteSck_host (b : Bit) (s : State) : (pinWriteSck b s).host = s.host := rfl
@[simp] theorem pinWriteSck_rstLine (b : Bit) (s : State) : (pinWriteSck b s).rstLine = s.rstLine := rfl
@[simp] theorem pinWriteSck_rstHeld (b : Bit) (s : State) : (pinWriteSck b s).rstHeld = s.rstHeld := rfl
@[simp] theorem pinWriteSck_env (b : Bit) (s : State) : (pinWriteSck b s).env = s.env := rfl
@[simp] theorem pinWriteSck_pins (b : Bit) (s : State) : (pinWriteSck b s).pins = s.pins := rfl

/-! ### pinWriteMosi -/

@[simp] theorem pinWriteMosi_cfgMode (b : Bit) (s : State) : (pinWriteMosi b s).cfgMode = s.cfgMode := rfl
@[simp] theorem pinWriteMosi_fmtValid (b : Bit) (s : State) : (pinWriteMosi b s).fmtValid = s.fmtValid := rfl
@[simp] theorem pinWriteMosi_cfgHz (b : Bit) (s : State) : (pinWriteMosi b s).cfgHz = s.cfgHz := rfl
@[simp] theorem pinWriteMosi_freqValid (b : Bit) (s : State) : (pinWriteMosi b s).freqValid = s.freqValid := rfl
@[simp] theorem pinWriteMosi_tx (b : Bit) (s : State) : (pinWriteMosi b s).tx = s.tx := rfl
@[simp] theorem pinWriteMosi_rx (b : Bit) (s : State) : (pinWriteMosi b s).rx = s.rx := rfl
@[simp] theorem pinWriteMosi_seqState (b : Bit) (s : State) : (pinWriteMosi b s).seqState = s.seqState := rfl
@[simp] theorem pinWriteMosi_seqOp (b : Bit) (s : State) : (pinWriteMosi b s).seqOp = s.seqOp := rfl
@[simp] theorem pinWriteMosi_seqIdx (b : Bit) (s : State) : (pinWriteMosi b s).seqIdx = s.seqIdx := rfl
@[simp] theorem pinWriteMosi_faultCode (b : Bit) (s : State) : (pinWriteMosi b s).faultCode = s.faultCode := rfl
@[simp] theorem pinWriteMosi_faultCmd (b : Bit) (s : State) : (pinWriteMosi b s).faultCmd = s.faultCmd := rfl
@[simp] theorem pinWriteMosi_sck (b : Bit) (s : State) : (pinWriteMosi b s).sck = s.sck := rfl
@[simp] theorem pinWriteMosi_mosi (b : Bit) (s : State) : (pinWriteMosi b s).mosi = .driven b := rfl
@[simp] theorem pinWriteMosi_qout (b : Bit) (s : State) : (pinWriteMosi b s).qout = s.qout := rfl
@[simp] theorem pinWriteMosi_qdir (b : Bit) (s : State) : (pinWriteMosi b s).qdir = s.qdir := rfl
@[simp] theorem pinWriteMosi_quadRun (b : Bit) (s : State) : (pinWriteMosi b s).quadRun = s.quadRun := rfl
@[simp] theorem pinWriteMosi_trace (b : Bit) (s : State) : (pinWriteMosi b s).trace = s.trace := rfl
@[simp] theorem pinWriteMosi_past (b : Bit) (s : State) : (pinWriteMosi b s).past = s.past := rfl
@[simp] theorem pinWriteMosi_host (b : Bit) (s : State) : (pinWriteMosi b s).host = s.host := rfl
@[simp] theorem pinWriteMosi_rstLine (b : Bit) (s : State) : (pinWriteMosi b s).rstLine = s.rstLine := rfl
@[simp] theorem pinWriteMosi_rstHeld (b : Bit) (s : State) : (pinWriteMosi b s).rstHeld = s.rstHeld := rfl
@[simp] theorem pinWriteMosi_env (b : Bit) (s : State) : (pinWriteMosi b s).env = s.env := rfl
@[simp] theorem pinWriteMosi_pins (b : Bit) (s : State) : (pinWriteMosi b s).pins = s.pins := rfl

/-! ### pinWriteQ -/

@[simp] theorem pinWriteQ_cfgMode (n : Nibble) (s : State) : (pinWriteQ n s).cfgMode = s.cfgMode := rfl
@[simp] theorem pinWriteQ_fmtValid (n : Nibble) (s : State) : (pinWriteQ n s).fmtValid = s.fmtValid := rfl
@[simp] theorem pinWriteQ_cfgHz (n : Nibble) (s : State) : (pinWriteQ n s).cfgHz = s.cfgHz := rfl
@[simp] theorem pinWriteQ_freqValid (n : Nibble) (s : State) : (pinWriteQ n s).freqValid = s.freqValid := rfl
@[simp] theorem pinWriteQ_tx (n : Nibble) (s : State) : (pinWriteQ n s).tx = s.tx := rfl
@[simp] theorem pinWriteQ_rx (n : Nibble) (s : State) : (pinWriteQ n s).rx = s.rx := rfl
@[simp] theorem pinWriteQ_seqState (n : Nibble) (s : State) : (pinWriteQ n s).seqState = s.seqState := rfl
@[simp] theorem pinWriteQ_seqOp (n : Nibble) (s : State) : (pinWriteQ n s).seqOp = s.seqOp := rfl
@[simp] theorem pinWriteQ_seqIdx (n : Nibble) (s : State) : (pinWriteQ n s).seqIdx = s.seqIdx := rfl
@[simp] theorem pinWriteQ_faultCode (n : Nibble) (s : State) : (pinWriteQ n s).faultCode = s.faultCode := rfl
@[simp] theorem pinWriteQ_faultCmd (n : Nibble) (s : State) : (pinWriteQ n s).faultCmd = s.faultCmd := rfl
@[simp] theorem pinWriteQ_sck (n : Nibble) (s : State) : (pinWriteQ n s).sck = s.sck := rfl
@[simp] theorem pinWriteQ_mosi (n : Nibble) (s : State) : (pinWriteQ n s).mosi = s.mosi := rfl
@[simp] theorem pinWriteQ_qout (n : Nibble) (s : State) : (pinWriteQ n s).qout = .driven n := rfl
@[simp] theorem pinWriteQ_qdir (n : Nibble) (s : State) : (pinWriteQ n s).qdir = s.qdir := rfl
@[simp] theorem pinWriteQ_quadRun (n : Nibble) (s : State) : (pinWriteQ n s).quadRun = s.quadRun := rfl
@[simp] theorem pinWriteQ_trace (n : Nibble) (s : State) : (pinWriteQ n s).trace = s.trace := rfl
@[simp] theorem pinWriteQ_past (n : Nibble) (s : State) : (pinWriteQ n s).past = s.past := rfl
@[simp] theorem pinWriteQ_host (n : Nibble) (s : State) : (pinWriteQ n s).host = s.host := rfl
@[simp] theorem pinWriteQ_rstLine (n : Nibble) (s : State) : (pinWriteQ n s).rstLine = s.rstLine := rfl
@[simp] theorem pinWriteQ_rstHeld (n : Nibble) (s : State) : (pinWriteQ n s).rstHeld = s.rstHeld := rfl
@[simp] theorem pinWriteQ_env (n : Nibble) (s : State) : (pinWriteQ n s).env = s.env := rfl
@[simp] theorem pinWriteQ_pins (n : Nibble) (s : State) : (pinWriteQ n s).pins = s.pins := rfl

/-! ### pinDirQ -/

@[simp] theorem pinDirQ_cfgMode (d : Dir) (s : State) : (pinDirQ d s).cfgMode = s.cfgMode := rfl
@[simp] theorem pinDirQ_fmtValid (d : Dir) (s : State) : (pinDirQ d s).fmtValid = s.fmtValid := rfl
@[simp] theorem pinDirQ_cfgHz (d : Dir) (s : State) : (pinDirQ d s).cfgHz = s.cfgHz := rfl
@[simp] theorem pinDirQ_freqValid (d : Dir) (s : State) : (pinDirQ d s).freqValid = s.freqValid := rfl
@[simp] theorem pinDirQ_tx (d : Dir) (s : State) : (pinDirQ d s).tx = s.tx := rfl
@[simp] theorem pinDirQ_rx (d : Dir) (s : State) : (pinDirQ d s).rx = s.rx := rfl
@[simp] theorem pinDirQ_seqState (d : Dir) (s : State) : (pinDirQ d s).seqState = s.seqState := rfl
@[simp] theorem pinDirQ_seqOp (d : Dir) (s : State) : (pinDirQ d s).seqOp = s.seqOp := rfl
@[simp] theorem pinDirQ_seqIdx (d : Dir) (s : State) : (pinDirQ d s).seqIdx = s.seqIdx := rfl
@[simp] theorem pinDirQ_faultCode (d : Dir) (s : State) : (pinDirQ d s).faultCode = s.faultCode := rfl
@[simp] theorem pinDirQ_faultCmd (d : Dir) (s : State) : (pinDirQ d s).faultCmd = s.faultCmd := rfl
@[simp] theorem pinDirQ_sck (d : Dir) (s : State) : (pinDirQ d s).sck = s.sck := rfl
@[simp] theorem pinDirQ_mosi (d : Dir) (s : State) : (pinDirQ d s).mosi = s.mosi := rfl
@[simp] theorem pinDirQ_qout (d : Dir) (s : State) : (pinDirQ d s).qout = s.qout := rfl
@[simp] theorem pinDirQ_qdir (d : Dir) (s : State) : (pinDirQ d s).qdir = d := rfl
@[simp] theorem pinDirQ_quadRun (d : Dir) (s : State) : (pinDirQ d s).quadRun = s.quadRun := rfl
@[simp] theorem pinDirQ_trace (d : Dir) (s : State) : (pinDirQ d s).trace = s.trace := rfl
@[simp] theorem pinDirQ_past (d : Dir) (s : State) : (pinDirQ d s).past = s.past := rfl
@[simp] theorem pinDirQ_host (d : Dir) (s : State) : (pinDirQ d s).host = s.host := rfl
@[simp] theorem pinDirQ_rstLine (d : Dir) (s : State) : (pinDirQ d s).rstLine = s.rstLine := rfl
@[simp] theorem pinDirQ_rstHeld (d : Dir) (s : State) : (pinDirQ d s).rstHeld = s.rstHeld := rfl
@[simp] theorem pinDirQ_env (d : Dir) (s : State) : (pinDirQ d s).env = s.env := rfl
@[simp] theorem pinDirQ_pins (d : Dir) (s : State) : (pinDirQ d s).pins = s.pins := rfl

/-! ### orRx -/

@[simp] theorem orRx_cfgMode (v : Byte) (env : Env) (s : State) : (orRx v env s).cfgMode = s.cfgMode := rfl
@[simp] theorem orRx_fmtValid (v : Byte) (env : Env) (s : State) : (orRx v env s).fmtValid = s.fmtValid := rfl
@[simp] theorem orRx_cfgHz (v : Byte) (env : Env) (s : State) : (orRx v env s).cfgHz = s.cfgHz := rfl
@[simp] theorem orRx_freqValid (v : Byte) (env : Env) (s : State) : (orRx v env s).freqValid = s.freqValid := rfl
@[simp] theorem orRx_tx (v : Byte) (env : Env) (s : State) : (orRx v env s).tx = s.tx := rfl
@[simp] theorem orRx_rx (v : Byte) (env : Env) (s : State) : (orRx v env s).rx = s.rx ||| v := rfl
@[simp] theorem orRx_seqState (v : Byte) (env : Env) (s : State) : (orRx v env s).seqState = s.seqState := rfl
@[simp] theorem orRx_seqOp (v : Byte) (env : Env) (s : State) : (orRx v env s).seqOp = s.seqOp := rfl
@[simp] theorem orRx_seqIdx (v : Byte) (env : Env) (s : State) : (orRx v env s).seqIdx = s.seqIdx := rfl
@[simp] theorem orRx_faultCode (v : Byte) (env : Env) (s : State) : (orRx v env s).faultCode = s.faultCode := rfl
@[simp] theorem orRx_faultCmd (v : Byte) (env : Env) (s : State) : (orRx v env s).faultCmd = s.faultCmd := rfl
@[simp] theorem orRx_sck (v : Byte) (env : Env) (s : State) : (orRx v env s).sck = s.sck := rfl
@[simp] theorem orRx_mosi (v : Byte) (env : Env) (s : State) : (orRx v env s).mosi = s.mosi := rfl
@[simp] theorem orRx_qout (v : Byte) (env : Env) (s : State) : (orRx v env s).qout = s.qout := rfl
@[simp] theorem orRx_qdir (v : Byte) (env : Env) (s : State) : (orRx v env s).qdir = s.qdir := rfl
@[simp] theorem orRx_quadRun (v : Byte) (env : Env) (s : State) : (orRx v env s).quadRun = s.quadRun := rfl
@[simp] theorem orRx_trace (v : Byte) (env : Env) (s : State) : (orRx v env s).trace = s.trace := rfl
@[simp] theorem orRx_past (v : Byte) (env : Env) (s : State) : (orRx v env s).past = s.past := rfl
@[simp] theorem orRx_host (v : Byte) (env : Env) (s : State) : (orRx v env s).host = s.host := rfl
@[simp] theorem orRx_rstLine (v : Byte) (env : Env) (s : State) : (orRx v env s).rstLine = s.rstLine := rfl
@[simp] theorem orRx_rstHeld (v : Byte) (env : Env) (s : State) : (orRx v env s).rstHeld = s.rstHeld := rfl
@[simp] theorem orRx_env (v : Byte) (env : Env) (s : State) : (orRx v env s).env = env := rfl
@[simp] theorem orRx_pins (v : Byte) (env : Env) (s : State) : (orRx v env s).pins = s.pins := rfl

/-! ### raiseFault -/

@[simp] theorem raiseFault_cfgMode (code : FaultCode) (cmd : CmdWord) (s : State) : (raiseFault code cmd s).cfgMode = s.cfgMode := rfl
@[simp] theorem raiseFault_fmtValid (code : FaultCode) (cmd : CmdWord) (s : State) : (raiseFault code cmd s).fmtValid = s.fmtValid := rfl
@[simp] theorem raiseFault_cfgHz (code : FaultCode) (cmd : CmdWord) (s : State) : (raiseFault code cmd s).cfgHz = s.cfgHz := rfl
@[simp] theorem raiseFault_freqValid (code : FaultCode) (cmd : CmdWord) (s : State) : (raiseFault code cmd s).freqValid = s.freqValid := rfl
@[simp] theorem raiseFault_tx (code : FaultCode) (cmd : CmdWord) (s : State) : (raiseFault code cmd s).tx = s.tx := rfl
@[simp] theorem raiseFault_rx (code : FaultCode) (cmd : CmdWord) (s : State) : (raiseFault code cmd s).rx = s.rx := rfl
@[simp] theorem raiseFault_seqState (code : FaultCode) (cmd : CmdWord) (s : State) : (raiseFault code cmd s).seqState = .faulted := rfl
@[simp] theorem raiseFault_seqOp (code : FaultCode) (cmd : CmdWord) (s : State) : (raiseFault code cmd s).seqOp = s.seqOp := rfl
@[simp] theorem raiseFault_seqIdx (code : FaultCode) (cmd : CmdWord) (s : State) : (raiseFault code cmd s).seqIdx = s.seqIdx := rfl
@[simp] theorem raiseFault_faultCode (code : FaultCode) (cmd : CmdWord) (s : State) : (raiseFault code cmd s).faultCode = code := rfl
@[simp] theorem raiseFault_faultCmd (code : FaultCode) (cmd : CmdWord) (s : State) : (raiseFault code cmd s).faultCmd = cmd := rfl
@[simp] theorem raiseFault_sck (code : FaultCode) (cmd : CmdWord) (s : State) : (raiseFault code cmd s).sck = s.sck := rfl
@[simp] theorem raiseFault_mosi (code : FaultCode) (cmd : CmdWord) (s : State) : (raiseFault code cmd s).mosi = s.mosi := rfl
@[simp] theorem raiseFault_qout (code : FaultCode) (cmd : CmdWord) (s : State) : (raiseFault code cmd s).qout = s.qout := rfl
@[simp] theorem raiseFault_qdir (code : FaultCode) (cmd : CmdWord) (s : State) : (raiseFault code cmd s).qdir = s.qdir := rfl
@[simp] theorem raiseFault_quadRun (code : FaultCode) (cmd : CmdWord) (s : State) : (raiseFault code cmd s).quadRun = s.quadRun := rfl
@[simp] theorem raiseFault_trace (code : FaultCode) (cmd : CmdWord) (s : State) : (raiseFault code cmd s).trace = .fault code cmd :: s.trace := rfl
@[simp] theorem raiseFault_past (code : FaultCode) (cmd : CmdWord) (s : State) : (raiseFault code cmd s).past = s.past := rfl
@[simp] theorem raiseFault_host (code : FaultCode) (cmd : CmdWord) (s : State) : (raiseFault code cmd s).host = s.host := rfl
@[simp] theorem raiseFault_rstLine (code : FaultCode) (cmd : CmdWord) (s : State) : (raiseFault code cmd s).rstLine = s.rstLine := rfl
@[simp] theorem raiseFault_rstHeld (code : FaultCode) (cmd : CmdWord) (s : State) : (raiseFault code cmd s).rstHeld = s.rstHeld := rfl
@[simp] theorem raiseFault_env (code : FaultCode) (cmd : CmdWord) (s : State) : (raiseFault code cmd s).env = s.env := rfl
@[simp] theorem raiseFault_pins (code : FaultCode) (cmd : CmdWord) (s : State) : (raiseFault code cmd s).pins = s.pins := rfl

/-! ### beginCommand -/

@[simp] theorem beginCommand_cfgMode (op : Op) (cmd : CmdWord) (s : State) : (beginCommand op cmd s).cfgMode = s.cfgMode := rfl
@[simp] theorem beginCommand_fmtValid (op : Op) (cmd : CmdWord) (s : State) : (beginCommand op cmd s).fmtValid = s.fmtValid := rfl
@[simp] theorem beginCommand_cfgHz (op : Op) (cmd : CmdWord) (s : State) : (beginCommand op cmd s).cfgHz = s.cfgHz := rfl
@[simp] theorem beginCommand_freqValid (op : Op) (cmd : CmdWord) (s : State) : (beginCommand op cmd s).freqValid = s.freqValid := rfl
@[simp] theorem beginCommand_tx (op : Op) (cmd : CmdWord) (s : State) : (beginCommand op cmd s).tx = s.tx := rfl
@[simp] theorem beginCommand_rx (op : Op) (cmd : CmdWord) (s : State) : (beginCommand op cmd s).rx = s.rx := rfl
@[simp] theorem beginCommand_seqState (op : Op) (cmd : CmdWord) (s : State) : (beginCommand op cmd s).seqState = .busy := rfl
@[simp] theorem beginCommand_seqOp (op : Op) (cmd : CmdWord) (s : State) : (beginCommand op cmd s).seqOp = op := rfl
@[simp] theorem beginCommand_seqIdx (op : Op) (cmd : CmdWord) (s : State) : (beginCommand op cmd s).seqIdx = 0 := rfl
@[simp] theorem beginCommand_faultCode (op : Op) (cmd : CmdWord) (s : State) : (beginCommand op cmd s).faultCode = s.faultCode := rfl
@[simp] theorem beginCommand_faultCmd (op : Op) (cmd : CmdWord) (s : State) : (beginCommand op cmd s).faultCmd = s.faultCmd := rfl
@[simp] theorem beginCommand_sck (op : Op) (cmd : CmdWord) (s : State) : (beginCommand op cmd s).sck = s.sck := rfl
@[simp] theorem beginCommand_mosi (op : Op) (cmd : CmdWord) (s : State) : (beginCommand op cmd s).mosi = s.mosi := rfl
@[simp] theorem beginCommand_qout (op : Op) (cmd : CmdWord) (s : State) : (beginCommand op cmd s).qout = s.qout := rfl
@[simp] theorem beginCommand_qdir (op : Op) (cmd : CmdWord) (s : State) : (beginCommand op cmd s).qdir = s.qdir := rfl
@[simp] theorem beginCommand_quadRun (op : Op) (cmd : CmdWord) (s : State) : (beginCommand op cmd s).quadRun = s.quadRun := rfl
@[simp] theorem beginCommand_trace (op : Op) (cmd : CmdWord) (s : State) : (beginCommand op cmd s).trace = .accept cmd :: s.trace := rfl
@[simp] theorem beginCommand_past (op : Op) (cmd : CmdWord) (s : State) : (beginCommand op cmd s).past = s.past := rfl
@[simp] theorem beginCommand_host (op : Op) (cmd : CmdWord) (s : State) : (beginCommand op cmd s).host = s.host := rfl
@[simp] theorem beginCommand_rstLine (op : Op) (cmd : CmdWord) (s : State) : (beginCommand op cmd s).rstLine = s.rstLine := rfl
@[simp] theorem beginCommand_rstHeld (op : Op) (cmd : CmdWord) (s : State) : (beginCommand op cmd s).rstHeld = s.rstHeld := rfl
@[simp] theorem beginCommand_env (op : Op) (cmd : CmdWord) (s : State) : (beginCommand op cmd s).env = s.env := rfl
@[simp] theorem beginCommand_pins (op : Op) (cmd : CmdWord) (s : State) : (beginCommand op cmd s).pins = s.pins := rfl

/-! ### complete -/

@[simp] theorem complete_cfgMode (s : State) : (complete s).cfgMode = s.cfgMode := rfl
@[simp] theorem complete_fmtValid (s : State) : (complete s).fmtValid = s.fmtValid := rfl
@[simp] theorem complete_cfgHz (s : State) : (complete s).cfgHz = s.cfgHz := rfl
@[simp] theorem complete_freqValid (s : State) : (complete s).freqValid = s.freqValid := rfl
@[simp] theorem complete_tx (s : State) : (complete s).tx = s.tx := rfl
@[simp] theorem complete_rx (s : State) : (complete s).rx = s.rx := rfl
@[simp] theorem complete_seqState (s : State) : (complete s).seqState = .idle := rfl
@[simp] theorem complete_seqOp (s : State) : (complete s).seqOp = s.seqOp := rfl
@[simp] theorem complete_seqIdx (s : State) : (complete s).seqIdx = s.seqIdx := rfl
@[simp] theorem complete_faultCode (s : State) : (complete s).faultCode = s.faultCode := rfl
@[simp] theorem complete_faultCmd (s : State) : (complete s).faultCmd = s.faultCmd := rfl
@[simp] theorem complete_sck (s : State) : (complete s).sck = s.sck := rfl
@[simp] theorem complete_mosi (s : State) : (complete s).mosi = s.mosi := rfl
@[simp] theorem complete_qout (s : State) : (complete s).qout = s.qout := rfl
@[simp] theorem complete_qdir (s : State) : (complete s).qdir = s.qdir := rfl
@[simp] theorem complete_quadRun (s : State) : (complete s).quadRun = (s.quadRun || s.seqOp.isQuad) := rfl
@[simp] theorem complete_trace (s : State) : (complete s).trace = .done (if s.seqOp.returnsByte then some s.rx else none) :: s.trace := rfl
@[simp] theorem complete_past (s : State) : (complete s).past = s.past := rfl
@[simp] theorem complete_host (s : State) : (complete s).host = s.host := rfl
@[simp] theorem complete_rstLine (s : State) : (complete s).rstLine = s.rstLine := rfl
@[simp] theorem complete_rstHeld (s : State) : (complete s).rstHeld = s.rstHeld := rfl
@[simp] theorem complete_env (s : State) : (complete s).env = s.env := rfl
@[simp] theorem complete_pins (s : State) : (complete s).pins = s.pins := rfl

/-! ### takeReset -/

@[simp] theorem takeReset_cfgMode (s : State) : (takeReset s).cfgMode = 0 := rfl
@[simp] theorem takeReset_fmtValid (s : State) : (takeReset s).fmtValid = false := rfl
@[simp] theorem takeReset_cfgHz (s : State) : (takeReset s).cfgHz = 0 := rfl
@[simp] theorem takeReset_freqValid (s : State) : (takeReset s).freqValid = false := rfl
@[simp] theorem takeReset_tx (s : State) : (takeReset s).tx = 0 := rfl
@[simp] theorem takeReset_rx (s : State) : (takeReset s).rx = 0 := rfl
@[simp] theorem takeReset_seqState (s : State) : (takeReset s).seqState = .idle := rfl
@[simp] theorem takeReset_seqOp (s : State) : (takeReset s).seqOp = .cfgfmt := rfl
@[simp] theorem takeReset_seqIdx (s : State) : (takeReset s).seqIdx = 0 := rfl
@[simp] theorem takeReset_faultCode (s : State) : (takeReset s).faultCode = .noFault := rfl
@[simp] theorem takeReset_faultCmd (s : State) : (takeReset s).faultCmd = 0 := rfl
@[simp] theorem takeReset_sck (s : State) : (takeReset s).sck = .unwritten 1 := rfl
@[simp] theorem takeReset_mosi (s : State) : (takeReset s).mosi = .unwritten 1 := rfl
@[simp] theorem takeReset_qout (s : State) : (takeReset s).qout = .unwritten 4 := rfl
@[simp] theorem takeReset_qdir (s : State) : (takeReset s).qdir = .inp := rfl
@[simp] theorem takeReset_quadRun (s : State) : (takeReset s).quadRun = false := rfl
@[simp] theorem takeReset_trace (s : State) : (takeReset s).trace = [] := rfl
@[simp] theorem takeReset_past (s : State) : (takeReset s).past = if s.rstHeld then s.past else s.trace :: s.past := rfl
@[simp] theorem takeReset_host (s : State) : (takeReset s).host = s.host := rfl
@[simp] theorem takeReset_rstLine (s : State) : (takeReset s).rstLine = s.rstLine := rfl
@[simp] theorem takeReset_rstHeld (s : State) : (takeReset s).rstHeld = true := rfl
@[simp] theorem takeReset_env (s : State) : (takeReset s).env = s.env := rfl
@[simp] theorem takeReset_pins (s : State) : (takeReset s).pins = s.pins := rfl

end Sys2Proof.Machine
end

