-- ==== Sys2Proof/Laws/Ops.lean ====
section
/-! SUPPORT. What each shared operation can do, once each: the gates of the accept step, the micro-step, the pin reads,
the choice of the enabled step, and the inversion of `step`. -/

namespace Sys2Proof.Machine

/-! ### The gates of the accept step -/

theorem whenIdle_of_idle {s : State} (h : s.seqState = .idle) (f : State → Host.Outcome State Fault Refusal) :
    whenIdle s f = f s := by simp [whenIdle, h]

theorem whenIdle_of_not_idle {s : State} (h : s.seqState ≠ .idle) (f : State → Host.Outcome State Fault Refusal) :
    whenIdle s f = .next s := by
  unfold whenIdle
  cases h' : s.seqState <;> simp_all

theorem whenConfigured_of_configured {s : State} (h : s.configured = true) (cmd : CmdWord)
    (f : State → Host.Outcome State Fault Refusal) : whenConfigured cmd s f = f s := by
  simp [whenConfigured, h]

theorem whenConfigured_of_not {s : State} (h : s.configured = false) (cmd : CmdWord)
    (f : State → Host.Outcome State Fault Refusal) :
    whenConfigured cmd s f = .next (raiseFault .notConfigured cmd s) := by
  simp [whenConfigured, h]

/-! ### The micro-step -/

theorem microStep_of_busy {s : State} (h : s.seqState = .busy) (u : Instr) (smp : Sample) (f : State → State) :
    microStep u smp f s = .next (emit (.uop u smp) { f s with seqIdx := s.seqIdx + 1 }) := by
  simp [microStep, h]

theorem microStep_of_not_busy {s : State} (h : s.seqState ≠ .busy) (u : Instr) (smp : Sample) (f : State → State) :
    microStep u smp f s = .next s := by
  unfold microStep
  cases h' : s.seqState <;> simp_all

/-- The instructions the sequencer plays; the others are the five commands. -/
def isMicroOp : Instr → Bool
  | .cfgfmt _ _ => false
  | .cfgfreq _ => false
  | .xfer _ => false
  | .qwr _ => false
  | .qrd => false
  | .uWait => true
  | .uDriveMosi _ => true
  | .uSampleMiso _ => true
  | .uToggleSck => true
  | .uSetSck _ => true
  | .uQdir _ => true
  | .uDriveq _ => true
  | .uSampleq _ => true

/-- What a micro-op does to pins and registers, beside the index and the trace. -/
def uopEffect (u : Instr) (s : State) : State :=
  match u with
  | .uDriveMosi b => pinWriteMosi b s
  | .uSampleMiso i => orRx (placeBit (pinReadMiso s).1 i) (pinReadMiso s).2 s
  | .uToggleSck => pinWriteSck (~~~s.sckLevel) s
  | .uSetSck b => pinWriteSck b s
  | .uQdir d => pinDirQ d s
  | .uDriveq n => pinWriteQ n s
  | .uSampleq h => orRx (placeNibble (pinReadQ s).1 h) (pinReadQ s).2 s
  | _ => s

/-- The value a micro-op samples. -/
def uopSample (u : Instr) (s : State) : Sample :=
  match u with
  | .uSampleMiso _ => .bit (pinReadMiso s).1
  | .uSampleq _ => .nibble (pinReadQ s).1
  | _ => .nothing

/-- The state after the micro-step of `u`. -/
def afterUop (u : Instr) (s : State) : State :=
  emit (.uop u (uopSample u s)) { uopEffect u s with seqIdx := s.seqIdx + 1 }

theorem exec_microOp_of_busy {u : Instr} {s : State} (hu : isMicroOp u = true) (h : s.seqState = .busy) :
    exec u s = .next (afterUop u s) := by
  cases u <;> first
    | (simp [isMicroOp] at hu; done)
    | exact microStep_of_busy h _ _ _

theorem exec_microOp_of_not_busy {u : Instr} {s : State} (hu : isMicroOp u = true) (h : s.seqState ≠ .busy) :
    exec u s = .next s := by
  cases u <;> first
    | (simp [isMicroOp] at hu; done)
    | exact microStep_of_not_busy h _ _ _

theorem exec_command_of_not_idle {c : Instr} {s : State} (hc : isMicroOp c = false) (h : s.seqState ≠ .idle) :
    exec c s = .next s := by
  cases c <;> first
    | (simp [isMicroOp] at hc; done)
    | (simp only [exec, execCfgfmt, execCfgfreq, execXfer, execQwr, execQrd]; exact whenIdle_of_not_idle h _)

/-! ### The pin reads -/

theorem pinReadMiso_loopback {s : State} (h : s.env = .loopback) : pinReadMiso s = (s.mosiLevel, .loopback) := by
  simp [pinReadMiso, h]

theorem pinReadMiso_constant {s : State} {b : Bit} {n : Nibble} (h : s.env = .constant b n) :
    pinReadMiso s = (b, .constant b n) := by simp [pinReadMiso, h]

theorem pinReadMiso_scripted {s : State} {b : Bit} {bs : List Bit} {ns : List Nibble}
    (h : s.env = .scripted (b :: bs) ns) : pinReadMiso s = (b, .scripted bs ns) := by simp [pinReadMiso, h]

theorem pinReadQ_constant {s : State} {b : Bit} {n : Nibble} (h : s.env = .constant b n) :
    pinReadQ s = (n, .constant b n) := by simp [pinReadQ, h]

theorem pinReadQ_scripted {s : State} {n : Nibble} {bs : List Bit} {ns : List Nibble}
    (h : s.env = .scripted bs (n :: ns)) : pinReadQ s = (n, .scripted bs ns) := by simp [pinReadQ, h]

@[simp] theorem driven_shown {w : Nat} (free b : BitVec w) : (Latch.driven b).shown free = b := by
  simp [Latch.driven, Latch.shown]

@[simp] theorem unwritten_shown {w : Nat} (free : BitVec w) : (Latch.unwritten w).shown free = free := by
  simp [Latch.unwritten, Latch.shown]

/-! ### What decodes to what -/

theorem decode_cmd_not_microOp {w : CmdWord} {i : Instr} (h : decode (.cmd w) = .ok i) : isMicroOp i = false := by
  simp only [decode, decodeCmd, whenReservedZero] at h
  repeat' split at h
  all_goals first
    | (simp at h; done)
    | (cases h; rfl)

/-! ### The enabled step -/

theorem enabled_reset_iff {s : State} : enabled s = .reset ↔ s.rstNow = true := by
  cases hr : s.rstNow
  · simp only [enabled, hr, Bool.false_eq_true, if_false, iff_false]
    cases s.seqState <;> simp only [enabledInIdle, enabledInBusy, enabledByWord] <;> repeat' split
    all_goals simp
  · simp [enabled, hr]

theorem enabled_idle {s : State} (hr : s.rstNow = false) (hs : s.seqState = .idle) :
    enabled s = enabledInIdle s := by simp [enabled, hr, hs]

theorem enabled_busy {s : State} (hr : s.rstNow = false) (hs : s.seqState = .busy) :
    enabled s = enabledInBusy s := by simp [enabled, hr, hs]

theorem enabled_faulted {s : State} (hr : s.rstNow = false) (hs : s.seqState = .faulted) :
    enabled s = .quiet := by simp [enabled, hr, hs]

theorem enabled_accept {s : State} {i : Instr} (h : enabled s = .accept i) :
    s.rstNow = false ∧ s.seqState = .idle ∧ ∃ w rest, s.host = w :: rest ∧ decode (.cmd w) = .ok i := by
  cases hr : s.rstNow
  · cases hs : s.seqState
    · rw [enabled_idle hr hs, enabledInIdle] at h
      cases hh : s.host with
      | nil => simp [hh] at h
      | cons w rest =>
        simp only [hh, enabledByWord] at h
        cases hd : decode (.cmd w) with
        | ok j => simp only [hd, Enabled.accept.injEq] at h; subst h; exact ⟨rfl, rfl, w, rest, rfl, hd⟩
        | error e => simp [hd] at h
    · rw [enabled_busy hr hs, enabledInBusy] at h
      revert h; repeat' split
      all_goals simp
    · rw [enabled_faulted hr hs] at h; simp at h
  · rw [enabled_reset_iff.mpr hr] at h; simp at h

theorem enabled_illegal {s : State} {w : CmdWord} (h : enabled s = .illegal w) :
    s.rstNow = false ∧ s.seqState = .idle ∧ (∃ rest, s.host = w :: rest) ∧ ∃ e, decode (.cmd w) = .error e := by
  cases hr : s.rstNow
  · cases hs : s.seqState
    · rw [enabled_idle hr hs, enabledInIdle] at h
      cases hh : s.host with
      | nil => simp [hh] at h
      | cons v rest =>
        simp only [hh, enabledByWord] at h
        cases hd : decode (.cmd v) with
        | ok j => simp [hd] at h
        | error e => simp only [hd, Enabled.illegal.injEq] at h; subst h; exact ⟨rfl, rfl, ⟨rest, rfl⟩, e, hd⟩
    · rw [enabled_busy hr hs, enabledInBusy] at h
      revert h; repeat' split
      all_goals simp
    · rw [enabled_faulted hr hs] at h; simp at h
  · rw [enabled_reset_iff.mpr hr] at h; simp at h

theorem enabled_micro {s : State} {u : Instr} (h : enabled s = .micro u) :
    s.rstNow = false ∧ s.seqState = .busy ∧ s.uprog[s.seqIdx]? = some u := by
  cases hr : s.rstNow
  · cases hs : s.seqState
    · rw [enabled_idle hr hs, enabledInIdle] at h
      cases hh : s.host with
      | nil => simp [hh] at h
      | cons v rest => simp only [hh, enabledByWord] at h; revert h; split <;> simp
    · rw [enabled_busy hr hs, enabledInBusy] at h
      cases hg : s.uprog[s.seqIdx]? with
      | none => simp only [hg] at h; revert h; split <;> simp
      | some v => simp only [hg, Enabled.micro.injEq] at h; subst h; exact ⟨rfl, rfl, rfl⟩
    · rw [enabled_faulted hr hs] at h; simp at h
  · rw [enabled_reset_iff.mpr hr] at h; simp at h

theorem enabled_complete {s : State} (h : enabled s = .complete) :
    s.rstNow = false ∧ s.seqState = .busy ∧ s.seqIdx = s.uprog.length := by
  cases hr : s.rstNow
  · cases hs : s.seqState
    · rw [enabled_idle hr hs, enabledInIdle] at h
      cases hh : s.host with
      | nil => simp [hh] at h
      | cons v rest => simp only [hh, enabledByWord] at h; revert h; split <;> simp
    · rw [enabled_busy hr hs, enabledInBusy] at h
      revert h; split
      · simp
      · split <;> simp_all
    · rw [enabled_faulted hr hs] at h; simp at h
  · rw [enabled_reset_iff.mpr hr] at h; simp at h

theorem enabled_pastEnd {s : State} (h : enabled s = .pastEnd) :
    s.rstNow = false ∧ s.seqState = .busy ∧ s.uprog.length < s.seqIdx := by
  cases hr : s.rstNow
  · cases hs : s.seqState
    · rw [enabled_idle hr hs, enabledInIdle] at h
      cases hh : s.host with
      | nil => simp [hh] at h
      | cons v rest => simp only [hh, enabledByWord] at h; revert h; split <;> simp
    · rw [enabled_busy hr hs, enabledInBusy] at h
      cases hg : s.uprog[s.seqIdx]? with
      | none =>
        have hle := List.getElem?_eq_none_iff.mp hg
        simp only [hg] at h
        by_cases he : s.seqIdx = s.uprog.length
        · simp [he] at h
        · exact ⟨rfl, rfl, by omega⟩
      | some v => simp [hg] at h
    · rw [enabled_faulted hr hs] at h; simp at h
  · rw [enabled_reset_iff.mpr hr] at h; simp at h

/-! ### The micro-programs -/

theorem isMicroOp_of_mem_bitprog {mode : BitVec 2} {tx : Byte} {i : BitVec 3} {u : Instr}
    (h : u ∈ bitprog mode tx i) : isMicroOp u = true := by
  unfold bitprog at h
  split at h <;> (simp only [List.mem_cons, List.not_mem_nil, or_false] at h; rcases h with h | h | h | h | h | h <;> subst h <;> rfl)

theorem isMicroOp_of_mem_uprog {op : Op} {mode : BitVec 2} {tx : Byte} {u : Instr}
    (h : u ∈ uprog op mode tx) : isMicroOp u = true := by
  cases op
  · simp [uprog] at h; subst h; rfl
  · simp [uprog] at h
  · simp only [uprog, List.mem_append] at h
    rcases h with ((((((h | h) | h) | h) | h) | h) | h) | h <;> exact isMicroOp_of_mem_bitprog h
  all_goals
    simp only [uprog, List.mem_cons, List.not_mem_nil, or_false] at h
    rcases h with h | h | h | h | h | h | h | h | h | h | h <;> subst h <;> rfl

theorem enabled_micro_isMicroOp {s : State} {u : Instr} (h : enabled s = .micro u) : isMicroOp u = true :=
  isMicroOp_of_mem_uprog (List.mem_of_getElem? (enabled_micro h).2.2)

/-! ### A step with `rst` high -/

theorem step_of_rst {s : State} (h : s.rstNow = true) : step s = .next (tick (takeReset s)) := by
  simp [step, enabled_reset_iff.mpr h]

/-- Holding `rst` for one more step changes nothing but the input lines: `past`, which fixes the `undef` levels, stays. -/
theorem step_of_rst_held {s : State} (h : s.rstNow = true) (hh : s.rstHeld = true) :
    ∃ t, step s = .next t ∧ t.past = s.past ∧ t.rstHeld = true ∧ t.rstLine = s.rstLine.tail :=
  ⟨_, step_of_rst h, by simp [hh], h, rfl⟩

/-! ### The inversion of `step` -/

/-- Everything a step that answers a next state can have been. -/
inductive StepNext (s t : State) : Prop
  | reset (h : s.rstNow = true) (ht : t = tick (takeReset s))
  | quiet (h : enabled s = .quiet) (ht : t = tick s)
  | accept (i : Instr) (h : enabled s = .accept i) (ht : exec i (popHost (tick s)) = .next t)
  | illegal (w : CmdWord) (h : enabled s = .illegal w) (ht : t = raiseFault .illegalCommand w (popHost (tick s)))
  | micro (u : Instr) (h : enabled s = .micro u) (ht : t = afterUop u (tick s))
  | complete (h : enabled s = .complete) (ht : t = Machine.complete (tick s))

theorem step_next_cases {s t : State} (h : step s = .next t) : StepNext s t := by
  unfold step at h
  cases he : enabled s with
  | reset => simp only [he, Host.Outcome.next.injEq] at h; exact .reset (enabled_reset_iff.mp he) h.symm
  | quiet => simp only [he, Host.Outcome.next.injEq] at h; exact .quiet he h.symm
  | accept i => simp only [he] at h; exact .accept i he h
  | illegal w => simp only [he, Host.Outcome.next.injEq] at h; exact .illegal w he h.symm
  | micro u =>
    simp only [he] at h
    rw [exec_microOp_of_busy (enabled_micro_isMicroOp he) (by simpa using (enabled_micro he).2.1)] at h
    exact .micro u he (Host.Outcome.next.inj h).symm
  | complete => simp only [he, Host.Outcome.next.injEq] at h; exact .complete he h.symm
  | pastEnd => simp [he] at h

/-- Everything the accept step of a decoded command can answer with a next state in `IDLE`. -/
inductive AcceptNext (i : Instr) (s t : State) : Prop
  | fault (code : FaultCode) (hc : code ≠ .noFault) (ht : t = raiseFault code (commandWord i) s)
  | cfgfmt (mode : BitVec 2) (hi : i = .cfgfmt 8#8 mode)
      (ht : t = beginCommand .cfgfmt (commandWord i) { s with cfgMode := mode, fmtValid := true })
  | cfgfreq (hz : BitVec 32) (hi : i = .cfgfreq hz) (hz0 : hz ≠ 0#32)
      (ht : t = beginCommand .cfgfreq (commandWord i) { s with cfgHz := hz, freqValid := true })
  | xfer (v : Byte) (hi : i = .xfer v) (hc : s.configured = true) (ha : s.interleaved = false)
      (ht : t = beginCommand .xfer (commandWord i) { s with tx := v, rx := 0#8 })
  | qwr (v : Byte) (hi : i = .qwr v) (hc : s.configured = true)
      (ht : t = beginCommand .qwr (commandWord i) { s with tx := v })
  | qrd (hi : i = .qrd) (hc : s.configured = true)
      (ht : t = beginCommand .qrd (commandWord i) { s with rx := 0#8 })

theorem exec_command_next {i : Instr} {s t : State} (hi : isMicroOp i = false) (hs : s.seqState = .idle)
    (h : exec i s = .next t) : AcceptNext i s t := by
  cases i with
  | cfgfmt bits mode =>
    simp only [exec, execCfgfmt, whenIdle_of_idle hs] at h
    split at h
    · rename_i hb
      simp only [State.cfgBits] at hb; subst hb
      exact .cfgfmt mode rfl (Host.Outcome.next.inj h).symm
    · exact .fault _ (by decide) (Host.Outcome.next.inj h).symm
  | cfgfreq hz =>
    simp only [exec, execCfgfreq, whenIdle_of_idle hs] at h
    split at h
    · exact .fault _ (by decide) (Host.Outcome.next.inj h).symm
    · rename_i hz0; exact .cfgfreq hz rfl hz0 (Host.Outcome.next.inj h).symm
  | xfer v =>
    simp only [exec, execXfer, whenIdle_of_idle hs, whenConfigured] at h
    split at h
    · rename_i hc
      split at h
      · simp at h
      · rename_i ha; exact .xfer v rfl hc (by simpa using ha) (Host.Outcome.next.inj h).symm
    · exact .fault _ (by decide) (Host.Outcome.next.inj h).symm
  | qwr v =>
    simp only [exec, execQwr, whenIdle_of_idle hs, whenConfigured] at h
    split at h
    · rename_i hc; exact .qwr v rfl hc (Host.Outcome.next.inj h).symm
    · exact .fault _ (by decide) (Host.Outcome.next.inj h).symm
  | qrd =>
    simp only [exec, execQrd, whenIdle_of_idle hs, whenConfigured] at h
    split at h
    · rename_i hc; exact .qrd rfl hc (Host.Outcome.next.inj h).symm
    · exact .fault _ (by decide) (Host.Outcome.next.inj h).symm
  | _ => simp [isMicroOp] at hi

end Sys2Proof.Machine
end

