-- ==== Sys2Proof/Laws/PerInstr.lean ====
section
/-! SUPPORT. Per instruction: the encoded word is the one that spec/opcode_table.json describes. `Statement i` says that
the code of `i` has its row's width, and that the row's mask picks the row's fixed bits out of it. -/

namespace Sys2Proof.Laws.TableRow

/-- The width, the fixed bits (`match`) and the mask of a row of spec/opcode_table.json. -/
structure Row where
  width : Nat
  fixed : CmdWord
  mask : CmdWord
deriving DecidableEq, Repr

/-- The row of an instruction, copied from spec/opcode_table.json. -/
def row : Instr → Row
  | .cfgfmt _ _ => { width := 40, fixed := 0x1000000000, mask := 0xFFFFFFFC00 }
  | .cfgfreq _ => { width := 40, fixed := 0x1100000000, mask := 0xFF00000000 }
  | .xfer _ => { width := 40, fixed := 0x2000000000, mask := 0xFFFFFFFF00 }
  | .qwr _ => { width := 40, fixed := 0x2100000000, mask := 0xFFFFFFFF00 }
  | .qrd => { width := 40, fixed := 0x2200000000, mask := 0xFFFFFFFFFF }
  | .uWait => { width := 8, fixed := 0x00, mask := 0xFF }
  | .uDriveMosi _ => { width := 8, fixed := 0x10, mask := 0xFE }
  | .uSampleMiso _ => { width := 8, fixed := 0x20, mask := 0xF8 }
  | .uToggleSck => { width := 8, fixed := 0x30, mask := 0xFF }
  | .uSetSck _ => { width := 8, fixed := 0x40, mask := 0xFE }
  | .uQdir _ => { width := 8, fixed := 0x50, mask := 0xFE }
  | .uDriveq _ => { width := 8, fixed := 0x60, mask := 0xF0 }
  | .uSampleq _ => { width := 8, fixed := 0x70, mask := 0xFE }

/-- How many bits a code has. -/
def bitsOf : Code → Nat
  | .cmd _ => 40
  | .uop _ => 8

/-- The code of the instruction fits its row of the opcode table. -/
def Statement (i : Instr) : Prop :=
  bitsOf (encode i) = (row i).width ∧ commandWord i &&& (row i).mask = (row i).fixed

theorem cfgfmt (bits : Byte) (mode : BitVec 2) : Statement (.cfgfmt bits mode) := by
  refine ⟨rfl, ?_⟩
  simp only [commandWord, encode, row]
  apply BitVec.eq_of_getLsbD_eq
  intro j hj
  simp only [BitVec.getLsbD_and, BitVec.getLsbD_append]
  interval_cases j <;> simp

theorem cfgfreq (hz : BitVec 32) : Statement (.cfgfreq hz) := by
  refine ⟨rfl, ?_⟩
  simp only [commandWord, encode, row]
  apply BitVec.eq_of_getLsbD_eq
  intro j hj
  simp only [BitVec.getLsbD_and, BitVec.getLsbD_append]
  interval_cases j <;> simp

theorem xfer (value : Byte) : Statement (.xfer value) := by
  unfold Statement; revert value; decide

theorem qwr (value : Byte) : Statement (.qwr value) := by
  unfold Statement; revert value; decide

theorem qrd : Statement .qrd := by unfold Statement; decide

theorem uWait : Statement .uWait := by unfold Statement; decide

theorem uDriveMosi (b : Bit) : Statement (.uDriveMosi b) := by unfold Statement; revert b; decide

theorem uSampleMiso (i : BitVec 3) : Statement (.uSampleMiso i) := by unfold Statement; revert i; decide

theorem uToggleSck : Statement .uToggleSck := by unfold Statement; decide

theorem uSetSck (b : Bit) : Statement (.uSetSck b) := by unfold Statement; revert b; decide

theorem uQdir (d : Dir) : Statement (.uQdir d) := by unfold Statement; cases d <;> decide

theorem uDriveq (n : Nibble) : Statement (.uDriveq n) := by unfold Statement; revert n; decide

theorem uSampleq (h : Half) : Statement (.uSampleq h) := by unfold Statement; cases h <;> decide

end Sys2Proof.Laws.TableRow
end

