-- ==== Sys2Proof/Laws/Uprog.lean ====
section
/-! SUPPORT. What one micro-step does to each field, what stands in a micro-program, and how the clock and `RX` follow
from a prefix of it. -/

namespace Sys2Proof.Machine

/-! ### The fields no micro-op writes, the index and the trace -/

@[simp] theorem afterUop_cfgMode (u : Instr) (s : State) : (afterUop u s).cfgMode = s.cfgMode := by cases u <;> rfl
@[simp] theorem afterUop_fmtValid (u : Instr) (s : State) : (afterUop u s).fmtValid = s.fmtValid := by cases u <;> rfl
@[simp] theorem afterUop_cfgHz (u : Instr) (s : State) : (afterUop u s).cfgHz = s.cfgHz := by cases u <;> rfl
@[simp] theorem afterUop_freqValid (u : Instr) (s : State) : (afterUop u s).freqValid = s.freqValid := by cases u <;> rfl
@[simp] theorem afterUop_tx (u : Instr) (s : State) : (afterUop u s).tx = s.tx := by cases u <;> rfl
@[simp] theorem afterUop_seqState (u : Instr) (s : State) : (afterUop u s).seqState = s.seqState := by cases u <;> rfl
@[simp] theorem afterUop_seqOp (u : Instr) (s : State) : (afterUop u s).seqOp = s.seqOp := by cases u <;> rfl
@[simp] theorem afterUop_faultCode (u : Instr) (s : State) : (afterUop u s).faultCode = s.faultCode := by cases u <;> rfl
@[simp] theorem afterUop_faultCmd (u : Instr) (s : State) : (afterUop u s).faultCmd = s.faultCmd := by cases u <;> rfl
@[simp] theorem afterUop_quadRun (u : Instr) (s : State) : (afterUop u s).quadRun = s.quadRun := by cases u <;> rfl
@[simp] theorem afterUop_past (u : Instr) (s : State) : (afterUop u s).past = s.past := by cases u <;> rfl
@[simp] theorem afterUop_host (u : Instr) (s : State) : (afterUop u s).host = s.host := by cases u <;> rfl
@[simp] theorem afterUop_rstLine (u : Instr) (s : State) : (afterUop u s).rstLine = s.rstLine := by cases u <;> rfl
@[simp] theorem afterUop_rstHeld (u : Instr) (s : State) : (afterUop u s).rstHeld = s.rstHeld := by cases u <;> rfl
@[simp] theorem afterUop_pins (u : Instr) (s : State) : (afterUop u s).pins = s.pins := by cases u <;> rfl
@[simp] theorem afterUop_seqIdx (u : Instr) (s : State) : (afterUop u s).seqIdx = s.seqIdx + 1 := by cases u <;> rfl
@[simp] theorem afterUop_trace (u : Instr) (s : State) : (afterUop u s).trace = .uop u (uopSample u s) :: s.trace := by
  cases u <;> rfl

/-! ### The fields some micro-op writes -/

@[simp] theorem afterUop_uWait_rx (s : State) : (afterUop .uWait s).rx = s.rx := rfl
@[simp] theorem afterUop_uDriveMosi_rx (s : State) (b : Bit) : (afterUop (.uDriveMosi b) s).rx = s.rx := rfl
@[simp] theorem afterUop_uSampleMiso_rx (s : State) (i : BitVec 3) : (afterUop (.uSampleMiso i) s).rx = s.rx ||| placeBit (pinReadMiso s).1 i := rfl
@[simp] theorem afterUop_uToggleSck_rx (s : State) : (afterUop .uToggleSck s).rx = s.rx := rfl
@[simp] theorem afterUop_uSetSck_rx (s : State) (b : Bit) : (afterUop (.uSetSck b) s).rx = s.rx := rfl
@[simp] theorem afterUop_uQdir_rx (s : State) (d : Dir) : (afterUop (.uQdir d) s).rx = s.rx := rfl
@[simp] theorem afterUop_uDriveq_rx (s : State) (n : Nibble) : (afterUop (.uDriveq n) s).rx = s.rx := rfl
@[simp] theorem afterUop_uSampleq_rx (s : State) (h : Half) : (afterUop (.uSampleq h) s).rx = s.rx ||| placeNibble (pinReadQ s).1 h := rfl
@[simp] theorem afterUop_uWait_sck (s : State) : (afterUop .uWait s).sck = s.sck := rfl
@[simp] theorem afterUop_uDriveMosi_sck (s : State) (b : Bit) : (afterUop (.uDriveMosi b) s).sck = s.sck := rfl
@[simp] theorem afterUop_uSampleMiso_sck (s : State) (i : BitVec 3) : (afterUop (.uSampleMiso i) s).sck = s.sck := rfl
@[simp] theorem afterUop_uToggleSck_sck (s : State) : (afterUop .uToggleSck s).sck = .driven (~~~s.sckLevel) := rfl
@[simp] theorem afterUop_uSetSck_sck (s : State) (b : Bit) : (afterUop (.uSetSck b) s).sck = .driven b := rfl
@[simp] theorem afterUop_uQdir_sck (s : State) (d : Dir) : (afterUop (.uQdir d) s).sck = s.sck := rfl
@[simp] theorem afterUop_uDriveq_sck (s : State) (n : Nibble) : (afterUop (.uDriveq n) s).sck = s.sck := rfl
@[simp] theorem afterUop_uSampleq_sck (s : State) (h : Half) : (afterUop (.uSampleq h) s).sck = s.sck := rfl
@[simp] theorem afterUop_uWait_mosi (s : State) : (afterUop .uWait s).mosi = s.mosi := rfl
@[simp] theorem afterUop_uDriveMosi_mosi (s : State) (b : Bit) : (afterUop (.uDriveMosi b) s).mosi = .driven b := rfl
@[simp] theorem afterUop_uSampleMiso_mosi (s : State) (i : BitVec 3) : (afterUop (.uSampleMiso i) s).mosi = s.mosi := rfl
@[simp] theorem afterUop_uToggleSck_mosi (s : State) : (afterUop .uToggleSck s).mosi = s.mosi := rfl
@[simp] theorem afterUop_uSetSck_mosi (s : State) (b : Bit) : (afterUop (.uSetSck b) s).mosi = s.mosi := rfl
@[simp] theorem afterUop_uQdir_mosi (s : State) (d : Dir) : (afterUop (.uQdir d) s).mosi = s.mosi := rfl
@[simp] theorem afterUop_uDriveq_mosi (s : State) (n : Nibble) : (afterUop (.uDriveq n) s).mosi = s.mosi := rfl
@[simp] theorem afterUop_uSampleq_mosi (s : State) (h : Half) : (afterUop (.uSampleq h) s).mosi = s.mosi := rfl
@[simp] theorem afterUop_uWait_qout (s : State) : (afterUop .uWait s).qout = s.qout := rfl
@[simp] theorem afterUop_uDriveMosi_qout (s : State) (b : Bit) : (afterUop (.uDriveMosi b) s).qout = s.qout := rfl
@[simp] theorem afterUop_uSampleMiso_qout (s : State) (i : BitVec 3) : (afterUop (.uSampleMiso i) s).qout = s.qout := rfl
@[simp] theorem afterUop_uToggleSck_qout (s : State) : (afterUop .uToggleSck s).qout = s.qout := rfl
@[simp] theorem afterUop_uSetSck_qout (s : State) (b : Bit) : (afterUop (.uSetSck b) s).qout = s.qout := rfl
@[simp] theorem afterUop_uQdir_qout (s : State) (d : Dir) : (afterUop (.uQdir d) s).qout = s.qout := rfl
@[simp] theorem afterUop_uDriveq_qout (s : State) (n : Nibble) : (afterUop (.uDriveq n) s).qout = .driven n := rfl
@[simp] theorem afterUop_uSampleq_qout (s : State) (h : Half) : (afterUop (.uSampleq h) s).qout = s.qout := rfl
@[simp] theorem afterUop_uWait_qdir (s : State) : (afterUop .uWait s).qdir = s.qdir := rfl
@[simp] theorem afterUop_uDriveMosi_qdir (s : State) (b : Bit) : (afterUop (.uDriveMosi b) s).qdir = s.qdir := rfl
@[simp] theorem afterUop_uSampleMiso_qdir (s : State) (i : BitVec 3) : (afterUop (.uSampleMiso i) s).qdir = s.qdir := rfl
@[simp] theorem afterUop_uToggleSck_qdir (s : State) : (afterUop .uToggleSck s).qdir = s.qdir := rfl
@[simp] theorem afterUop_uSetSck_qdir (s : State) (b : Bit) : (afterUop (.uSetSck b) s).qdir = s.qdir := rfl
@[simp] theorem afterUop_uQdir_qdir (s : State) (d : Dir) : (afterUop (.uQdir d) s).qdir = d := rfl
@[simp] theorem afterUop_uDriveq_qdir (s : State) (n : Nibble) : (afterUop (.uDriveq n) s).qdir = s.qdir := rfl
@[simp] theorem afterUop_uSampleq_qdir (s : State) (h : Half) : (afterUop (.uSampleq h) s).qdir = s.qdir := rfl
@[simp] theorem afterUop_uWait_env (s : State) : (afterUop .uWait s).env = s.env := rfl
@[simp] theorem afterUop_uDriveMosi_env (s : State) (b : Bit) : (afterUop (.uDriveMosi b) s).env = s.env := rfl
@[simp] theorem afterUop_uSampleMiso_env (s : State) (i : BitVec 3) : (afterUop (.uSampleMiso i) s).env = (pinReadMiso s).2 := rfl
@[simp] theorem afterUop_uToggleSck_env (s : State) : (afterUop .uToggleSck s).env = s.env := rfl
@[simp] theorem afterUop_uSetSck_env (s : State) (b : Bit) : (afterUop (.uSetSck b) s).env = s.env := rfl
@[simp] theorem afterUop_uQdir_env (s : State) (d : Dir) : (afterUop (.uQdir d) s).env = s.env := rfl
@[simp] theorem afterUop_uDriveq_env (s : State) (n : Nibble) : (afterUop (.uDriveq n) s).env = s.env := rfl
@[simp] theorem afterUop_uSampleq_env (s : State) (h : Half) : (afterUop (.uSampleq h) s).env = (pinReadQ s).2 := rfl

/-! ### The step in `BUSY` -/

theorem step_busy_eq {s : State} (hb : s.seqState = .busy) (hr : s.rstNow = false) :
    step s =
      match s.uprog[s.seqIdx]? with
      | some u => .next (afterUop u (tick s))
      | none => if s.seqIdx = s.uprog.length then .next (complete (tick s)) else .fault .indexPastEnd := by
  unfold step
  rw [enabled_busy hr hb, enabledInBusy]
  cases hg : s.uprog[s.seqIdx]? with
  | none => by_cases he : s.seqIdx = s.uprog.length <;> simp [he]
  | some u => simp only; exact exec_microOp_of_busy (isMicroOp_of_mem_uprog (List.mem_of_getElem? hg)) hb

theorem step_of_enabled_micro {s : State} {u : Instr} (he : enabled s = .micro u) :
    step s = .next (afterUop u (tick s)) := by
  obtain ⟨hr, hb, hg⟩ := enabled_micro he
  rw [step_busy_eq hb hr, hg]

/-- Replacing the host's words and playing a micro-op commute. -/
theorem afterUop_with_host (u : Instr) (s : State) (l : List CmdWord) :
    afterUop u { s with host := l } = { afterUop u s with host := l } := by cases u <;> rfl

/-- Replacing `CFG.HZ` and playing a micro-op commute. -/
theorem afterUop_with_cfgHz (u : Instr) (s : State) (hz : BitVec 32) :
    afterUop u { s with cfgHz := hz } = { afterUop u s with cfgHz := hz } := by cases u <;> rfl

/-! ### What stands in a micro-program -/

theorem length_bitprog (mode : BitVec 2) (tx : Byte) (i : BitVec 3) : (bitprog mode tx i).length = 6 := by
  unfold bitprog; split <;> rfl

theorem length_uprog (op : Op) (mode : BitVec 2) (tx : Byte) : (uprog op mode tx).length = op.microOps := by
  cases op <;> simp [uprog, Op.microOps, length_bitprog]

theorem uSetSck_not_mem_bitprog (mode : BitVec 2) (tx : Byte) (i : BitVec 3) (b : Bit) :
    Instr.uSetSck b ∉ bitprog mode tx i := by unfold bitprog; split <;> simp

theorem uQdir_not_mem_bitprog (mode : BitVec 2) (tx : Byte) (i : BitVec 3) (d : Dir) :
    Instr.uQdir d ∉ bitprog mode tx i := by unfold bitprog; split <;> simp

theorem uDriveq_not_mem_bitprog (mode : BitVec 2) (tx : Byte) (i : BitVec 3) (n : Nibble) :
    Instr.uDriveq n ∉ bitprog mode tx i := by unfold bitprog; split <;> simp

theorem uSampleq_not_mem_bitprog (mode : BitVec 2) (tx : Byte) (i : BitVec 3) (h : Half) :
    Instr.uSampleq h ∉ bitprog mode tx i := by unfold bitprog; split <;> simp

theorem cfgfmt_of_uSetSck_mem {op : Op} {mode : BitVec 2} {tx : Byte} {b : Bit}
    (h : Instr.uSetSck b ∈ uprog op mode tx) : op = .cfgfmt := by
  cases op <;> first
    | rfl
    | simp [uprog, uSetSck_not_mem_bitprog] at h

theorem quad_of_uQdir_mem {op : Op} {mode : BitVec 2} {tx : Byte} {d : Dir} (h : Instr.uQdir d ∈ uprog op mode tx) :
    (op = .qwr ∧ d = .out) ∨ (op = .qrd ∧ d = .inp) := by
  cases op <;> simp_all [uprog, uQdir_not_mem_bitprog]

theorem qwr_of_uDriveq_mem {op : Op} {mode : BitVec 2} {tx : Byte} {n : Nibble}
    (h : Instr.uDriveq n ∈ uprog op mode tx) : op = .qwr := by
  cases op <;> first
    | rfl
    | simp [uprog, uDriveq_not_mem_bitprog] at h

theorem qrd_of_uSampleq_mem {op : Op} {mode : BitVec 2} {tx : Byte} {h : Half}
    (hm : Instr.uSampleq h ∈ uprog op mode tx) : op = .qrd := by
  cases op <;> first
    | rfl
    | simp [uprog, uSampleq_not_mem_bitprog] at hm

theorem xfer_of_uSampleMiso_mem {op : Op} {mode : BitVec 2} {tx : Byte} {i : BitVec 3}
    (h : Instr.uSampleMiso i ∈ uprog op mode tx) : op = .xfer := by
  cases op <;> first
    | rfl
    | simp [uprog] at h

theorem transfer_of_uToggleSck_mem {op : Op} {mode : BitVec 2} {tx : Byte}
    (h : Instr.uToggleSck ∈ uprog op mode tx) : op.isTransfer = true := by
  cases op <;> first
    | rfl
    | simp [uprog] at h

/-! ### The clock and `RX` over a prefix -/

theorem take_succ_of_getElem? {α : Type} {l : List α} {k : Nat} {u : α} (h : l[k]? = some u) :
    l.take (k + 1) = l.take k ++ [u] := by
  rw [List.take_add_one, h]; rfl

theorem bit_add_succ (m : Bit) (n : Nat) : m + BitVec.ofNat 1 (n + 1) = ~~~(m + BitVec.ofNat 1 n) := by
  rw [BitVec.ofNat_add]
  generalize BitVec.ofNat 1 n = x
  revert m x; decide

theorem clockAfter_whole {op : Op} {mode : BitVec 2} {tx : Byte} (h : op ≠ .cfgfmt) :
    clockAfter op mode tx (uprog op mode tx).length = cpol mode := by
  have hb : ∀ i, (bitprog mode tx i).count .uToggleSck = 2 := by intro i; unfold bitprog; split <;> rfl
  unfold clockAfter
  rw [List.take_length]
  cases op with
  | cfgfmt => exact absurd rfl h
  | xfer => simp [uprog, List.count_append, hb]
  | _ => simp [uprog]

theorem fillsAll_append_singleton (l : List Instr) (u : Instr) : fillsAll (l ++ [u]) = fillsAll l ||| fills u := by
  simp [fillsAll]

theorem placeBit_within (b : Bit) (i : BitVec 3) : placeBit b i &&& ~~~(1#8 <<< i.toNat) = 0 := by
  revert b i; decide

theorem placeNibble_within (n : Nibble) (h : Half) : placeNibble n h &&& ~~~(fills (.uSampleq h)) = 0 := by
  revert n; cases h <;> decide

/-- Before the sample of bit `i` an `XFER` has filled exactly the bits above `i`. -/
theorem fillsAll_before_sample {mode : BitVec 2} {tx : Byte} {k : Nat} {i : BitVec 3}
    (h : (uprog .xfer mode tx)[k]? = some (.uSampleMiso i)) :
    fillsAll ((uprog .xfer mode tx).take k) = ~~~(BitVec.ofNat 8 (2 ^ (i.toNat + 1) - 1)) := by
  have hk := (List.getElem?_eq_some_iff.1 h).1
  rw [length_uprog] at hk
  simp only [Op.microOps] at hk
  unfold uprog bitprog at *
  by_cases hm : cpha mode = 0#1
  · simp only [hm, if_true] at *
    interval_cases k <;> simp at h <;> subst h <;> simp [fillsAll, fills]
  · simp only [hm, if_false] at *
    interval_cases k <;> simp at h <;> subst h <;> simp [fillsAll, fills]

end Sys2Proof.Machine
end

