-- ==== Sys2Proof/Laws/Run.lean ====
section
/-! SUPPORT. Runs of several steps: a run of an accepted command is the accept step, its micro-ops one by one, and the
completion step. -/

namespace Sys2Proof.Machine

/-! ### Runs -/

theorem run_succ {s t : State} (h : step s = .next t) (k : Nat) :
    Host.Core.run core (k + 1) s = Host.Core.run core k t := by
  have h' : core.step s = .next t := h
  simp only [Host.Core.run, h']

theorem run_add {s t : State} {k : Nat} (h : Host.Core.run core k s = .next t) (m : Nat) :
    Host.Core.run core (k + m) s = Host.Core.run core m t := by
  induction k generalizing s with
  | zero =>
    have : (.next s : Host.Outcome State Fault Refusal) = .next t := h
    cases this; simp
  | succ k ih =>
    simp only [Host.Core.run] at h
    cases hs : step s with
    | next s' =>
      have hs' : core.step s = .next s' := hs
      rw [hs'] at h
      rw [show k + 1 + m = (k + m) + 1 by omega, run_succ hs]
      exact ih h
    | fault r => have hs' : core.step s = .fault r := hs; rw [hs'] at h; cases h
    | refused r => have hs' : core.step s = .refused r := hs; rw [hs'] at h; cases h

/-- What every step keeps, every run keeps. -/
theorem run_keeps {P : State → Prop} (hstep : ∀ s t, P s → step s = .next t → P t) {k : Nat} {s t : State} (h : P s)
    (hr : Host.Core.run core k s = .next t) : P t := by
  induction k generalizing s with
  | zero =>
    have : (.next s : Host.Outcome State Fault Refusal) = .next t := hr
    cases this; exact h
  | succ k ih =>
    simp only [Host.Core.run] at hr
    cases hs : step s with
    | next s' =>
      have hs' : core.step s = .next s' := hs
      rw [hs'] at hr
      exact ih (hstep s s' h hs) hr
    | fault r => have hs' : core.step s = .fault r := hs; rw [hs'] at hr; cases hr
    | refused r => have hs' : core.step s = .refused r := hs; rw [hs'] at hr; cases hr

/-! ### What a monitor records of a run -/

section
variable (chosen : Event → State → Bool) (pads : List PinHandle)

theorem recorded_succ {s t : State} (h : step s = .next t) (n : Nat) :
    recorded chosen pads (n + 1) s = (readingAt chosen pads s t).toList ++ recorded chosen pads n t := by
  simp only [recorded, h]

/-- What is recorded of a run in two parts is what is recorded of each. -/
theorem recorded_add {s t : State} {k : Nat} (h : Host.Core.run core k s = .next t) (m : Nat) :
    recorded chosen pads (k + m) s = recorded chosen pads k s ++ recorded chosen pads m t := by
  induction k generalizing s with
  | zero =>
    have : (.next s : Host.Outcome State Fault Refusal) = .next t := h
    cases this; simp [recorded]
  | succ k ih =>
    simp only [Host.Core.run] at h
    cases hs : step s with
    | next s' =>
      have hs' : core.step s = .next s' := hs
      rw [hs'] at h
      rw [show k + 1 + m = (k + m) + 1 by omega, recorded_succ chosen pads hs, recorded_succ chosen pads hs, ih h,
        List.append_assoc]
    | fault r => have hs' : core.step s = .fault r := hs; rw [hs'] at h; cases h
    | refused r => have hs' : core.step s = .refused r := hs; rw [hs'] at h; cases h

/-- A step that emits `e` is read exactly if the monitor chooses it. -/
theorem readingAt_of_event {s t : State} {e : Event} (h : t.trace = e :: s.trace) :
    readingAt chosen pads s t = if chosen e t then some (t.reading pads) else none := by
  simp [readingAt, emittedBetween, h]

/-- A step that emits nothing is not read. -/
theorem readingAt_of_no_event {s t : State} (h : t.trace = s.trace) : readingAt chosen pads s t = none := by
  simp [readingAt, emittedBetween, h]

end

/-! ### No reset is coming -/

theorem rstNow_of_noReset {s : State} (h : s.noReset) : s.rstNow = false := by
  unfold State.rstNow
  cases hr : s.rstLine with
  | nil => rfl
  | cons b bs => exact h b (by simp [hr])

/-- Where no reset comes the input lines move on as with `rst` low. -/
theorem tick_of_noReset {s : State} (h : s.noReset) : tick s = { s with rstLine := s.rstLine.tail, rstHeld := false } :=
  tick_of_low (rstNow_of_noReset h)

theorem noReset_of_tail {s t : State} (h : s.noReset) (ht : t.rstLine = s.rstLine.tail) : t.noReset := by
  intro b hb; rw [ht] at hb; exact h b (List.mem_of_mem_tail hb)

/-! ### Playing a list of micro-ops -/

/-- The state after the micro-ops `us`, one step each. -/
def plays (us : List Instr) (s : State) : State := us.foldl (fun s u => afterUop u (tick s)) s

theorem plays_append (us vs : List Instr) (s : State) : plays (us ++ vs) s = plays vs (plays us s) := by simp [plays]

theorem plays_cons (u : Instr) (us : List Instr) (s : State) : plays (u :: us) s = plays us (afterUop u (tick s)) := rfl

theorem noReset_plays (us : List Instr) : ∀ s : State, s.noReset → (plays us s).noReset := by
  induction us with
  | nil => intro s h; exact h
  | cons u us ih => intro s h; exact ih _ (noReset_of_tail h (by simp))

section
variable (us : List Instr) (s : State)

theorem plays_cfgMode : (plays us s).cfgMode = s.cfgMode := by
  induction us generalizing s with
  | nil => rfl
  | cons u us ih => rw [plays_cons, ih]; simp

theorem plays_fmtValid : (plays us s).fmtValid = s.fmtValid := by
  induction us generalizing s with
  | nil => rfl
  | cons u us ih => rw [plays_cons, ih]; simp

theorem plays_cfgHz : (plays us s).cfgHz = s.cfgHz := by
  induction us generalizing s with
  | nil => rfl
  | cons u us ih => rw [plays_cons, ih]; simp

theorem plays_freqValid : (plays us s).freqValid = s.freqValid := by
  induction us generalizing s with
  | nil => rfl
  | cons u us ih => rw [plays_cons, ih]; simp

theorem plays_tx : (plays us s).tx = s.tx := by
  induction us generalizing s with
  | nil => rfl
  | cons u us ih => rw [plays_cons, ih]; simp

theorem plays_seqState : (plays us s).seqState = s.seqState := by
  induction us generalizing s with
  | nil => rfl
  | cons u us ih => rw [plays_cons, ih]; simp

theorem plays_seqOp : (plays us s).seqOp = s.seqOp := by
  induction us generalizing s with
  | nil => rfl
  | cons u us ih => rw [plays_cons, ih]; simp

theorem plays_faultCode : (plays us s).faultCode = s.faultCode := by
  induction us generalizing s with
  | nil => rfl
  | cons u us ih => rw [plays_cons, ih]; simp

theorem plays_faultCmd : (plays us s).faultCmd = s.faultCmd := by
  induction us generalizing s with
  | nil => rfl
  | cons u us ih => rw [plays_cons, ih]; simp

theorem plays_quadRun : (plays us s).quadRun = s.quadRun := by
  induction us generalizing s with
  | nil => rfl
  | cons u us ih => rw [plays_cons, ih]; simp

theorem plays_past : (plays us s).past = s.past := by
  induction us generalizing s with
  | nil => rfl
  | cons u us ih => rw [plays_cons, ih]; simp

theorem plays_host : (plays us s).host = s.host := by
  induction us generalizing s with
  | nil => rfl
  | cons u us ih => rw [plays_cons, ih]; simp

theorem plays_pins : (plays us s).pins = s.pins := by
  induction us generalizing s with
  | nil => rfl
  | cons u us ih => rw [plays_cons, ih]; simp

theorem plays_seqIdx : (plays us s).seqIdx = s.seqIdx + us.length := by
  induction us generalizing s with
  | nil => rfl
  | cons u us ih => rw [plays_cons, ih]; simp; omega

theorem plays_rstLine : (plays us s).rstLine = s.rstLine.drop us.length := by
  induction us generalizing s with
  | nil => rfl
  | cons u us ih => rw [plays_cons, ih]; simp [List.drop_tail]

/-- The events of a list of micro-ops are its micro-ops, in order. -/
theorem plays_trace : ∃ es, (plays us s).trace = es ++ s.trace ∧ es.reverse.map Event.microOp = us.map some := by
  induction us generalizing s with
  | nil => exact ⟨[], rfl, rfl⟩
  | cons u us ih =>
    obtain ⟨es, h1, h2⟩ := ih (afterUop u (tick s))
    refine ⟨es ++ [.uop u (uopSample u (tick s))], ?_, ?_⟩
    · rw [plays_cons, h1]; simp
    · simp [h2, Event.microOp]

end

theorem run_plays (us : List Instr) : ∀ s : State, s.seqState = .busy → s.noReset →
    (∀ k, k < us.length → s.uprog[s.seqIdx + k]? = us[k]?) →
    Host.Core.run core us.length s = .next (plays us s) := by
  induction us with
  | nil => intro s _ _ _; rfl
  | cons u us ih =>
    intro s hb hr hk
    have h0 := hk 0 (by simp)
    simp at h0
    have hs : step s = .next (afterUop u (tick s)) := by
      rw [step_busy_eq hb (rstNow_of_noReset hr)]; simp [h0]
    rw [List.length_cons, run_succ hs, plays_cons]
    apply ih
    · simpa using hb
    · exact noReset_of_tail hr (by simp)
    · intro k hkl
      have := hk (k + 1) (by simpa using hkl)
      simp only [List.getElem?_cons_succ] at this
      rw [← this]
      simp [State.uprog, Nat.add_assoc, Nat.add_comm 1 k]

/-- What a monitor records while the micro-ops `us` are played, one step each. -/
def playsRecorded (chosen : Event → State → Bool) (pads : List PinHandle) : List Instr → State → List (List PadView)
  | [], _ => []
  | u :: us, s =>
    (if chosen (.uop u (uopSample u (tick s))) (afterUop u (tick s)) then [(afterUop u (tick s)).reading pads] else []) ++
      playsRecorded chosen pads us (afterUop u (tick s))

theorem recorded_plays (chosen : Event → State → Bool) (pads : List PinHandle) (us : List Instr) : ∀ s : State,
    s.seqState = .busy → s.noReset → (∀ k, k < us.length → s.uprog[s.seqIdx + k]? = us[k]?) →
    recorded chosen pads us.length s = playsRecorded chosen pads us s := by
  induction us with
  | nil => intro s _ _ _; rfl
  | cons u us ih =>
    intro s hb hr hk
    have h0 := hk 0 (by simp)
    simp at h0
    have hs : step s = .next (afterUop u (tick s)) := by
      rw [step_busy_eq hb (rstNow_of_noReset hr)]; simp [h0]
    rw [List.length_cons, recorded_succ chosen pads hs, readingAt_of_event chosen pads (e := .uop u (uopSample u (tick s))) (by simp)]
    rw [ih _ (by simpa using hb) (noReset_of_tail hr (by simp))]
    · simp only [playsRecorded]; split <;> rfl
    · intro k hkl
      have := hk (k + 1) (by simpa using hkl)
      simp only [List.getElem?_cons_succ] at this
      rw [← this]
      simp [State.uprog, Nat.add_assoc, Nat.add_comm 1 k]

/-! ### A whole command -/

theorem step_of_presented {s : State} {w : CmdWord} {rest : List CmdWord} {i : Instr} (h1 : s.seqState = .idle)
    (h2 : s.noReset) (h3 : s.host = w :: rest) (h4 : decode (.cmd w) = .ok i) :
    step s = exec i (popHost (tick s)) := by
  simp [step, enabled_idle (rstNow_of_noReset h2) h1, enabledInIdle, h3, enabledByWord, h4]

/-- From the accept step that leads to `b`, a command runs through its micro-program and its completion step. -/
theorem run_accepted {s b : State} (hacc : step s = .next b) (hb : b.seqState = .busy) (hi : b.seqIdx = 0)
    (hr : b.noReset) :
    Host.Core.run core (b.seqOp.microOps + 2) s = .next (complete (tick (plays b.uprog b))) := by
  have hlen : b.uprog.length = b.seqOp.microOps := length_uprog _ _ _
  have h1 : Host.Core.run core b.uprog.length b = .next (plays b.uprog b) :=
    run_plays _ _ hb hr fun k _ => by rw [hi]; simp
  have hup : (plays b.uprog b).uprog = b.uprog := by
    simp only [State.uprog, plays_seqOp, plays_cfgMode, plays_tx]
  have hix : (plays b.uprog b).seqIdx = b.uprog.length := by rw [plays_seqIdx, hi]; omega
  have h2 : step (plays b.uprog b) = .next (complete (tick (plays b.uprog b))) := by
    rw [step_busy_eq (by rw [plays_seqState]; exact hb) (rstNow_of_noReset (noReset_plays _ _ hr)), hup, hix]
    simp
  rw [← hlen, show b.uprog.length + 2 = (b.uprog.length + 1) + 1 by omega, run_succ hacc, run_add h1 1, run_succ h2]
  rfl

/-! ### One bit of a transfer -/

section
variable (mode : BitVec 2) (tx : Byte) (i : BitVec 3) (s : State)

theorem plays_bitprog_qdir : (plays (bitprog mode tx i) s).qdir = s.qdir := by unfold bitprog; split <;> simp [plays]

theorem plays_bitprog_qout : (plays (bitprog mode tx i) s).qout = s.qout := by unfold bitprog; split <;> simp [plays]

theorem plays_bitprog_mosi : (plays (bitprog mode tx i) s).mosi = .driven (bitAt tx i.toNat) := by
  unfold bitprog; split <;> simp [plays]

theorem plays_bitprog_sck {c : Bit} (h : s.sck = .driven c) : (plays (bitprog mode tx i) s).sck = .driven c := by
  unfold bitprog; split <;> simp [h, plays, State.sckLevel]

end

end Sys2Proof.Machine
end

