-- ==== Sys2Proof/Machine/Asm.lean ====
section
/-! DEFINITION. The text form of commands (30_encoding.md R104): one command a line, the mnemonic of 00_scope.md R3, its
operands separated by commas, decimal or 0x numbers, a comment after a semicolon, a response after an arrow; the source's
function-call spelling is interchangeable. Host-side text only: no step depends on anything here (log
entry 22). -/

namespace Sys2Proof.Machine

/-- A blank of the text form. -/
def isBlank (c : Char) : Bool := c == ' ' || c == '\t'

/-- A text without blanks at either end. -/
def trimBlanks (cs : List Char) : List Char :=
  ((cs.dropWhile isBlank).reverse.dropWhile isBlank).reverse

/-- A text cut at every `sep`. -/
def splitAtChar (sep : Char) : List Char → List (List Char)
  | [] => [[]]
  | c :: cs =>
    match splitAtChar sep cs with
    | [] => [[c]]
    | part :: parts => if c == sep then [] :: part :: parts else (c :: part) :: parts

/-- The value of a digit in a base of at most 16. -/
def digitValue (base : Nat) (c : Char) : Option Nat :=
  let n := c.toNat
  let v :=
    if 48 ≤ n ∧ n ≤ 57 then n - 48
    else if 65 ≤ n ∧ n ≤ 70 then n - 55
    else if 97 ≤ n ∧ n ≤ 102 then n - 87
    else 16
  if v < base then some v else none

/-- The digits read so far as a number, and the rest of the digits. -/
def digitsFrom (base acc : Nat) : List Char → Option Nat
  | [] => some acc
  | c :: cs =>
    match digitValue base c with
    | some v => digitsFrom base (acc * base + v) cs
    | none => none

/-- At least one digit. -/
def someDigits (base : Nat) (cs : List Char) : Option Nat :=
  if cs.isEmpty then none else digitsFrom base 0 cs

/-- A number: hexadecimal after `0x`, else decimal. -/
def parseNumber : List Char → Option Nat
  | '0' :: 'x' :: ds => someDigits 16 ds
  | ds => someDigits 10 ds

/-- A number as an operand of `w` bits; a number that does not fit is no operand (R97). -/
def asField (w n : Nat) : Option (BitVec w) := if n < 2 ^ w then some (BitVec.ofNat w n) else none

/-- The command of a mnemonic, or of the source's name for it (R3), with its operands. -/
def buildCommand (name : List Char) (args : List Nat) : Option Instr :=
  let is (a b : String) : Bool := name == a.toList || name == b.toList
  match args with
  | [] => if is "QRD" "transferQuadRead" then some .qrd else none
  | [a] =>
    if is "CFGFREQ" "configureFrequency" then (asField 32 a).map .cfgfreq
    else if is "XFER" "transferWord" then (asField 8 a).map .xfer
    else if is "QWR" "transferQuadWrite" then (asField 8 a).map .qwr
    else none
  | [a, b] =>
    if is "CFGFMT" "configureFormat" then
      match asField 8 a, asField 2 b with
      | some bits, some mode => some (.cfgfmt bits mode)
      | _, _ => none
    else none
  | _ => none

/-- The operands of a line, separated by commas. -/
def parseOperands (cs : List Char) : Option (List Nat) :=
  if (trimBlanks cs).isEmpty then some []
  else (splitAtChar ',' cs).mapM fun part => parseNumber (trimBlanks part)

/-- The text before a response arrow, which must be followed by a number. -/
def cutResponse : List Char → Option (List Char)
  | [] => some []
  | '-' :: '>' :: r => if (parseNumber (trimBlanks r)).isSome then some [] else none
  | '-' :: _ => none
  | c :: cs => (cutResponse cs).map (c :: ·)

/-- A command in the mnemonic form or in the function-call form. -/
def parseCommand (cs : List Char) : Option Instr :=
  let cs := trimBlanks cs
  match splitAtChar '(' cs with
  | [name, inner] =>
    match inner.reverse with
    | ')' :: revArgs => (parseOperands revArgs.reverse).bind (buildCommand (trimBlanks name))
    | _ => none
  | _ =>
    let name := cs.takeWhile fun c => !isBlank c
    (parseOperands (cs.drop name.length)).bind (buildCommand name)

/-- One line: nothing (blank or comment only), or one command; no line that is neither. -/
def parseLine (line : List Char) : Option (Option Instr) :=
  (cutResponse (line.takeWhile fun c => c != ';')).bind fun body =>
    if (trimBlanks body).isEmpty then some none else (parseCommand body).map some

/-- A hexadecimal digit. -/
def hexDigit (n : Nibble) : Char :=
  if n.toNat < 10 then Char.ofNat (48 + n.toNat) else Char.ofNat (55 + n.toNat)

/-- A byte as `0xNN`. -/
def hexByte (v : Byte) : String :=
  String.ofList ['0', 'x', hexDigit (upperNibble v), hexDigit (lowerNibble v)]

/-- A command as a line; micro-ops have no text form (R102). -/
def asmLine : Instr → Option String
  | .cfgfmt bits mode => some ("CFGFMT " ++ toString bits.toNat ++ ", " ++ toString mode.toNat)
  | .cfgfreq hz => some ("CFGFREQ " ++ toString hz.toNat)
  | .xfer value => some ("XFER " ++ hexByte value)
  | .qwr value => some ("QWR " ++ hexByte value)
  | .qrd => some "QRD"
  | .uWait => none
  | .uDriveMosi _ => none
  | .uSampleMiso _ => none
  | .uToggleSck => none
  | .uSetSck _ => none
  | .uQdir _ => none
  | .uDriveq _ => none
  | .uSampleq _ => none

/-- A response as it is written after the command. -/
def responseText (v : Byte) : String := "-> " ++ hexByte v

end Sys2Proof.Machine
end

