-- ==== Sys2Proof/Tests/Slice0.lean ====
section
/-! SUPPORT. The model's own tests: ill-formed terms, one decoded word per instruction, single steps whose results come
from spec/95_test_vectors.md, and for every statement with hypotheses a witness that meets them. -/

namespace Sys2Proof.Tests

open Sys2Proof Sys2Proof.Machine

/-- One field of the next state; nothing on a fault or a refusal. -/
def after {α : Type} (f : State → α) (o : Host.Outcome State Fault Refusal) : Option α :=
  match o with
  | .next t => some (f t)
  | .fault _ => none
  | .refused _ => none

/-- The state after `CFGFMT 8, mode` and `CFGFREQ 1000000` have completed, with the clock at its idle level. -/
def ready (mode : BitVec 2) : State :=
  { State.reset with
    cfgMode := mode, fmtValid := true, cfgHz := 1000000, freqValid := true, sck := .driven (cpol mode),
    rstHeld := false }

/-- `ready`, with one command word presented. -/
def offered (mode : BitVec 2) (w : CmdWord) : State := { ready mode with host := [w] }

/-- A command running at index `idx`. -/
def running (op : Op) (idx : Nat) : State := { ready 0 with seqState := .busy, seqOp := op, seqIdx := idx }

/-- The engine after `CFGFREQ 0` was refused with a fault. -/
def faulted : State := { ready 0 with seqState := .faulted, faultCode := .freqZero, faultCmd := 0x1100000000 }

/-! ### Well-formedness: an ill-formed term for each check -/

theorem test_wellFormed_refuses_width_16 : (Instr.cfgfmt 16 0).wellFormed = false := by decide

theorem test_wellFormed_refuses_width_0 : (Instr.cfgfmt 0 3).wellFormed = false := by decide

theorem test_wellFormed_refuses_frequency_0 : (Instr.cfgfreq 0).wellFormed = false := by decide

theorem test_wellFormed_accepts : (Instr.cfgfmt 8 3).wellFormed = true ∧ (Instr.cfgfreq 1).wellFormed = true := by decide

/-! ### Decoding: a word of each instruction, bit by bit from 30_encoding.md R92 to R96 and R103 -/

theorem test_decode_cfgfmt :
    decodeTableWord 40 0b00010000_00000000_00000000_00000011_00001000 = some (.cfgfmt 8 3) := by decide

theorem test_decode_cfgfreq :
    decodeTableWord 40 0b00010001_00000000_00001111_01000010_01000000 = some (.cfgfreq 1000000) := by decide

theorem test_decode_xfer :
    decodeTableWord 40 0b00100000_00000000_00000000_00000000_10100101 = some (.xfer 0xA5) := by decide

theorem test_decode_qwr :
    decodeTableWord 40 0b00100001_00000000_00000000_00000000_10110100 = some (.qwr 0xB4) := by decide

theorem test_decode_qrd :
    decodeTableWord 40 0b00100010_00000000_00000000_00000000_00000000 = some .qrd := by decide

theorem test_decode_uWait : decodeTableWord 8 0b00000000 = some .uWait := by decide

theorem test_decode_uDriveMosi : decodeTableWord 8 0b00010001 = some (.uDriveMosi 1) := by decide

theorem test_decode_uSampleMiso : decodeTableWord 8 0b00100101 = some (.uSampleMiso 5) := by decide

theorem test_decode_uToggleSck : decodeTableWord 8 0b00110000 = some .uToggleSck := by decide

theorem test_decode_uSetSck : decodeTableWord 8 0b01000001 = some (.uSetSck 1) := by decide

theorem test_decode_uQdir : decodeTableWord 8 0b01010001 = some (.uQdir .out) := by decide

theorem test_decode_uDriveq : decodeTableWord 8 0b01101011 = some (.uDriveq 0xB) := by decide

theorem test_decode_uSampleq : decodeTableWord 8 0b01110001 = some (.uSampleq .high) := by decide

/-- Neighbours of the codes that are no micro-op (R103). -/
theorem test_decode_refuses_codes :
    decodeTableWord 8 0x01 = none ∧ decodeTableWord 8 0x12 = none ∧ decodeTableWord 8 0x28 = none ∧
    decodeTableWord 8 0x31 = none ∧ decodeTableWord 8 0x72 = none ∧ decodeTableWord 8 0x80 = none := by decide

/-- V-ENC14 to V-ENC19, refused by the name of the reason. -/
theorem test_decode_refuses_words :
    decode (.cmd 0x0000000000) = .error (.unassignedOpcode 0x00) ∧
    decode (.cmd 0x1000000408) = .error (.reservedBits 0x10) ∧
    decode (.cmd 0x2200000001) = .error (.reservedBits 0x22) := ⟨rfl, rfl, rfl⟩

/-! ### Commands: the accept step -/

/-- V-CFG2: `CFGFMT 8, 3` from reset. -/
theorem test_cfgfmt_accept :
    after (fun t => (t.cfgMode, t.fmtValid, t.seqState, t.sck.written)) (exec (.cfgfmt 8 3) State.reset) =
      some (3, true, .busy, false) := by decide

/-- V-FLT4: `CFGFMT 0, 3`. -/
theorem test_cfgfmt_width_fault :
    after (fun t => (t.faultCodePort, t.faultCmd, t.cfgMode)) (exec (.cfgfmt 0 3) (ready 1)) =
      some (2, 0x1000000300, 1) := by decide

/-- V-CFG6: `CFGFREQ 1000000` from reset, no pin touched. -/
theorem test_cfgfreq_accept :
    after (fun t => (t.cfgHz, t.freqValid, t.sck)) (exec (.cfgfreq 1000000) State.reset) =
      some (1000000, true, Latch.unwritten 1) := by decide

/-- V-FLT5: `CFGFREQ 0`. -/
theorem test_cfgfreq_zero_fault :
    after (fun t => (t.faultCodePort, t.cfgHz, t.seqState)) (exec (.cfgfreq 0) (ready 0)) =
      some (3, 1000000, .faulted) := by decide

/-- R121: `XFER 0x05` clears `RX` and latches `TX`. -/
theorem test_xfer_accept :
    after (fun t => (t.tx, t.rx, t.seqIdx, t.seqOp)) (exec (.xfer 0x05) { ready 0 with rx := 0xFF }) =
      some (0x05, 0x00, 0, .xfer) := by decide

/-- V-FLT1: `XFER 0x05` from reset. -/
theorem test_xfer_unconfigured_fault :
    after (fun t => (t.faultCodePort, t.faultCmd, t.seqState)) (exec (.xfer 0x05) State.reset) =
      some (4, 0x2000000005, .faulted) := by decide

/-- R121: `QWR` latches `TX` and leaves `RX`. -/
theorem test_qwr_accept :
    after (fun t => (t.tx, t.rx, t.qdir)) (exec (.qwr 0xB4) { ready 0 with rx := 0x77 }) = some (0xB4, 0x77, .inp) := by
  decide

/-- V-FLT2: `QWR 0xFF` with only the format configured. -/
theorem test_qwr_unconfigured_fault :
    after (fun t => (t.faultCodePort, t.faultCmd)) (exec (.qwr 0xFF) { ready 0 with freqValid := false }) =
      some (4, 0x21000000FF) := by decide

/-- R121: `QRD` clears `RX` and leaves `TX`. -/
theorem test_qrd_accept :
    after (fun t => (t.tx, t.rx, t.seqOp)) (exec .qrd { ready 0 with rx := 0x77, tx := 0x12 }) =
      some (0x12, 0x00, .qrd) := by decide

/-- V-FLT2b: `QRD` with only the frequency configured. -/
theorem test_qrd_unconfigured_fault :
    after (fun t => (t.faultCodePort, t.faultCmd)) (exec .qrd { ready 0 with fmtValid := false }) =
      some (4, 0x2200000000) := by decide

/-- V-FLT7: a reserved bit is found before the missing configuration. -/
theorem test_illegal_before_unconfigured :
    after (fun t => (t.faultCodePort, t.faultCmd)) (step { State.reset with host := [0x2000000100] }) =
      some (1, 0x2000000100) := by decide

/-- V-FLT6: a reserved bit is found before the width. -/
theorem test_illegal_before_width :
    after (fun t => (t.faultCodePort, t.cfgMode)) (step (offered 2 0x1000000410)) = some (1, 2) := by decide

/-! ### Micro-ops: V-UOP1 to V-UOP17 -/

/-- V-UOP3. -/
theorem test_driveMosi_from_undef :
    after (fun t => t.mosi) (exec (.uDriveMosi 0) (running .xfer 0)) = some (.driven 0) := by decide

/-- V-UOP1. -/
theorem test_driveMosi_one :
    after (fun t => (t.mosi, t.seqIdx)) (exec (.uDriveMosi 1) { running .xfer 6 with mosi := .driven 0 }) =
      some (.driven 1, 7) := by decide

/-- V-UOP5. -/
theorem test_sampleMiso_five :
    after (fun t => t.rx) (exec (.uSampleMiso 5) { running .xfer 13 with rx := 0x80, env := .constant 1 0 }) =
      some 0xA0 := by decide

/-- V-UOP6. -/
theorem test_sampleMiso_zero :
    after (fun t => t.rx) (exec (.uSampleMiso 0) { running .xfer 43 with rx := 0xA0, env := .constant 0 0 }) =
      some 0xA0 := by decide

/-- V-UOP7. -/
theorem test_toggle_rises : after (fun t => t.sck) (exec .uToggleSck (running .xfer 2)) = some (.driven 1) := by decide

/-- V-UOP8. -/
theorem test_toggle_falls :
    after (fun t => t.sck) (exec .uToggleSck { running .xfer 4 with sck := .driven 1 }) = some (.driven 0) := by decide

/-- V-UOP9. -/
theorem test_wait :
    after (fun t => { t with seqIdx := 3, trace := [] }) (exec .uWait (running .xfer 3)) = some (running .xfer 3) ∧
    after (fun t => t.seqIdx) (exec .uWait (running .xfer 3)) = some 4 := by decide

/-- V-UOP10. -/
theorem test_setSck_from_undef :
    after (fun t => t.sck) (exec (.uSetSck 1) { running .cfgfmt 0 with sck := .unwritten 1 }) = some (.driven 1) := by
  decide

/-- V-UOP11. -/
theorem test_setSck_falls :
    after (fun t => t.sck) (exec (.uSetSck 0) { running .cfgfmt 0 with sck := .driven 1 }) = some (.driven 0) := by decide

/-- V-UOP13: the pads show the stale latch, lane 2 high. -/
theorem test_qdir_out :
    after (fun t => (t.qdir, t.pad (.lane 2), t.pad (.lane 0))) (exec (.uQdir .out) { running .qwr 0 with qout := .driven 4 }) =
      some (.out, .driven 1, .driven 0) := by decide

/-- V-UOP14. -/
theorem test_qdir_in :
    after (fun t => (t.qdir, t.qout, t.pad (.lane 2)))
        (exec (.uQdir .inp) { running .qrd 0 with qdir := .out, qout := .driven 4 }) =
      some (.inp, .driven 4, .notDriven) := by decide

/-- V-UOP15: lanes 3..0 become 1, 0, 1, 1. -/
theorem test_driveq :
    after (fun t => (t.pad (.lane 3), t.pad (.lane 2), t.pad (.lane 1), t.pad (.lane 0)))
        (exec (.uDriveq 0xB) { running .qwr 1 with qdir := .out, qout := .driven 4 }) =
      some (.driven 1, .driven 0, .driven 1, .driven 1) := by decide

/-- V-UOP16. -/
theorem test_sampleq_high :
    after (fun t => t.rx) (exec (.uSampleq .high) { running .qrd 2 with env := .constant 0 0xA }) = some 0xA0 := by decide

/-- V-UOP17. -/
theorem test_sampleq_low :
    after (fun t => t.rx) (exec (.uSampleq .low) { running .qrd 7 with rx := 0xA0, env := .constant 0 0x5 }) =
      some 0xA5 := by decide

/-! ### The machine around them -/

/-- V-FLT8: a faulted engine takes no command. -/
theorem test_faulted_waits :
    after (fun t => (t.cmdReady, t.host, t.faultCodePort)) (step { faulted with host := [0x2000000005] }) =
      some (false, [0x2000000005], 3) := by decide

/-- V-FLT9: reset out of a fault. -/
theorem test_reset_from_fault :
    after (fun t => (t.seqState, t.faultCodePort, t.fmtValid, t.freqValid)) (step { faulted with rstLine := [true] }) =
      some (.idle, 0, false, false) := by decide

/-- V-QR3, the completion: `Done(0xA5)`. -/
theorem test_completion_returns_rx :
    after (fun t => (t.trace, t.seqState)) (step { running .qrd 11 with rx := 0xA5 }) =
      some ([.done (some 0xA5)], .idle) := by decide

/-- V-QW1, the completion: `Done()`. -/
theorem test_completion_returns_nothing :
    after (fun t => t.trace) (step { running .qwr 11 with rx := 0xA5 }) = some [.done none] := by decide

/-- V-QW1, the micro-program as its codes. -/
theorem test_qwr_codes :
    (uprog .qwr 2 0xB4).map encode =
      [0x51, 0x6B, 0x30, 0x00, 0x30, 0x00, 0x64, 0x30, 0x00, 0x30, 0x00].map Code.uop := by decide

/-- V-XF2, the first two bits of `0xA5` in mode 1, as their codes. -/
theorem test_xfer_codes_trailing :
    ((uprog .xfer 1 0xA5).take 12).map encode =
      [0x11, 0x30, 0x00, 0x27, 0x30, 0x00, 0x10, 0x30, 0x00, 0x26, 0x30, 0x00].map Code.uop := by decide

/-- E9: the half-period at 500000 Hz is one microsecond. -/
theorem test_half_period : halfPeriod 500000 = 1 / 1000000 := by
  have h : BitVec.toNat (500000 : BitVec 32) = 500000 := rfl
  rw [halfPeriod, h]; norm_num

/-! ### Sound states that the witnesses use -/

theorem ready_inv (mode : BitVec 2) : Inv (ready mode) := by
  have h : ∀ mode : BitVec 2, (ready mode).sck = .driven (cpol (ready mode).cfgMode) := fun _ => rfl
  constructor <;> first
    | exact fun _ _ => h mode
    | exact fun _ => (by decide : (1000000 : BitVec 32) ≠ 0)
    | (intro hb; cases hb)
    | simp [ready, State.reset]

theorem faulted_inv : Inv faulted := by constructor <;> decide

/-- `XFER 0xA5`, about to sample bit 7 (mode 0). -/
def atFirstSample : State := { running .xfer 1 with tx := 0xA5, mosi := .driven 1 }

/-- `XFER 0xA5` under loopback, about to sample bit 0 (mode 0). -/
def atLastSample : State := { running .xfer 43 with tx := 0xA5, mosi := .driven 1, rx := 0xA4, env := .loopback }

/-- `QRD`, about to sample the upper nibble: the clock is away from idle. -/
def atHighNibble : State := { running .qrd 2 with sck := .driven 1 }

/-- `QRD`, about to sample the lower nibble. -/
def atLowNibble : State := { running .qrd 7 with sck := .driven 1, rx := 0xA0 }

/-- `QWR 0xB4`, about to drive the upper nibble. -/
def atLaneDrive : State := { running .qwr 1 with tx := 0xB4, qdir := .out }

/-- `QWR 0xB4`, about to toggle the clock. -/
def atToggle : State := { running .qwr 2 with tx := 0xB4, qdir := .out, qout := .driven 0xB }

/-- `QWR 0xB4`, about to complete. -/
def atEnd : State := { running .qwr 11 with tx := 0xB4, qdir := .out, qout := .driven 4 }

theorem atFirstSample_inv : Inv atFirstSample := by constructor <;> decide
theorem atLastSample_inv : Inv atLastSample := by constructor <;> decide
theorem atHighNibble_inv : Inv atHighNibble := by constructor <;> decide
theorem atLowNibble_inv : Inv atLowNibble := by constructor <;> decide
theorem atLaneDrive_inv : Inv atLaneDrive := by constructor <;> decide
theorem atToggle_inv : Inv atToggle := by constructor <;> decide
theorem atEnd_inv : Inv atEnd := by constructor <;> decide

theorem noReset_of_nil {s : State} (h : s.rstLine = []) : s.noReset := by
  intro b hb; rw [h] at hb; cases hb

/-! ### A witness for the hypotheses of every statement that has some -/

theorem witness_EncodeUndoesDecode :
    decode (.cmd 0x1000000308) = .ok (.cfgfmt 8 3) ∧ decode (.uop 0x27) = .ok (.uSampleMiso 7) := ⟨rfl, rfl⟩

theorem witness_StepRunsPresentedCommand :
    (offered 0 0x20000000A5).seqState = .idle ∧ (offered 0 0x20000000A5).rstNow = false ∧
    (offered 0 0x20000000A5).host = 0x20000000A5 :: [] ∧ decode (.cmd 0x20000000A5) = .ok (.xfer 0xA5) :=
  ⟨rfl, rfl, rfl, rfl⟩

theorem witness_StepRunsCurrentMicroOp :
    atToggle.seqState = .busy ∧ atToggle.rstNow = false ∧
    (uprog atToggle.seqOp atToggle.cfgMode atToggle.tx)[atToggle.seqIdx]? = some .uToggleSck := ⟨rfl, rfl, rfl⟩

theorem witness_CompletionStep :
    atEnd.seqState = .busy ∧ atEnd.rstNow = false ∧
    atEnd.seqIdx = (uprog atEnd.seqOp atEnd.cfgMode atEnd.tx).length := ⟨rfl, rfl, rfl⟩

theorem witness_QuadRunRecordsQuadCommands :
    step atEnd = .next (complete (tick atEnd)) ∧ enabled atEnd = .complete ∧ atEnd.rstNow = false := ⟨rfl, rfl, rfl⟩

theorem witness_CfgfmtIsAccepted : State.reset.seqState = .idle := rfl

theorem witness_CfgfmtOtherWidthFaults : (ready 0).seqState = .idle ∧ (0 : Byte) ≠ 8 ∧ (255 : Byte) ≠ 8 := by decide

theorem witness_CfgfreqIsAccepted :
    (ready 0).seqState = .idle ∧ (1 : BitVec 32) ≠ 0 ∧ (4294967295 : BitVec 32) ≠ 0 := by decide

theorem witness_CfgfreqZeroFaults : (ready 0).seqState = .idle := rfl

theorem witness_XferIsAccepted :
    (ready 3).seqState = .idle ∧ (ready 3).fmtValid = true ∧ (ready 3).freqValid = true ∧
    (ready 3).pins.laneAlias = false ∧ (ready 3).quadRun = false := by decide

theorem witness_QwrIsAccepted :
    (ready 2).seqState = .idle ∧ (ready 2).fmtValid = true ∧ (ready 2).freqValid = true := ⟨rfl, rfl, rfl⟩

theorem witness_QrdIsAccepted :
    (ready 1).seqState = .idle ∧ (ready 1).fmtValid = true ∧ (ready 1).freqValid = true := ⟨rfl, rfl, rfl⟩

theorem witness_UnconfiguredTransferFaults :
    State.reset.seqState = .idle ∧ State.reset.fmtValid = false ∧
    ({ ready 0 with freqValid := false } : State).freqValid = false := ⟨rfl, rfl, rfl⟩

/-- Both sides of the equivalence occur: separate pads, and pads shared by lane 0 and the serial-out pin. -/
theorem witness_XferRefusedOnlyUnderSharedPads :
    (ready 0).seqState = .idle ∧ (ready 0).fmtValid = true ∧ (ready 0).freqValid = true ∧
    (ready 0).pins.laneAlias = false ∧
    ({ Pins.separate with lane0 := 0 } : Pins).laneAlias = true := by decide

theorem witness_IllegalWordFaults :
    (offered 0 0x2300000000).seqState = .idle ∧ (offered 0 0x2300000000).rstNow = false ∧
    (offered 0 0x2300000000).host = 0x2300000000 :: [] ∧ ¬ isCommandWord 0x2300000000 ∧
    ¬ isCommandWord 0x1000000408 := by
  refine ⟨rfl, rfl, rfl, ?_, ?_⟩ <;> unfold isCommandWord <;> decide

theorem witness_CommandWaitsUntilIdle :
    atToggle.seqState ≠ .idle ∧ faulted.seqState ≠ .idle ∧ (commandOp (.xfer 5)).isSome = true ∧
    step faulted = .next (tick faulted) ∧ faulted.rstNow = false := ⟨by decide, by decide, rfl, rfl, rfl⟩

theorem witness_WaitChangesOnlyTheIndex : (running .qwr 3).seqState = .busy := rfl

theorem witness_DriveMosiWritesTheLatch : (running .xfer 0).seqState = .busy := rfl

theorem witness_SampleMisoAccumulates : atFirstSample.seqState = .busy := rfl

theorem witness_ToggleComplementsTheClock :
    atToggle.seqState = .busy ∧ enabled atToggle = .micro .uToggleSck ∧ Inv atToggle := ⟨rfl, rfl, atToggle_inv⟩

theorem witness_SetSckWritesTheLatch : (running .cfgfmt 0).seqState = .busy := rfl

theorem witness_QdirSetsTheSharedDirection : (running .qrd 0).seqState = .busy := rfl

theorem witness_DriveqWritesAllLanes : atLaneDrive.seqState = .busy := rfl

theorem witness_SampleqAccumulates : atHighNibble.seqState = .busy := rfl

theorem witness_NoMicroOpOutsideBusy :
    (ready 0).seqState ≠ .busy ∧ faulted.seqState ≠ .busy ∧ commandOp .uToggleSck = none := by decide

/-- The first and the last bit of a transfer, and both nibbles of a quad read. -/
theorem witness_SamplingIsAssignment :
    (Inv atFirstSample ∧ enabled atFirstSample = .micro (.uSampleMiso 7)) ∧
    (Inv atLastSample ∧ enabled atLastSample = .micro (.uSampleMiso 0)) ∧
    (Inv atHighNibble ∧ enabled atHighNibble = .micro (.uSampleq .high)) ∧
    (Inv atLowNibble ∧ enabled atLowNibble = .micro (.uSampleq .low)) :=
  ⟨⟨atFirstSample_inv, rfl⟩, ⟨atLastSample_inv, rfl⟩, ⟨atHighNibble_inv, rfl⟩, ⟨atLowNibble_inv, rfl⟩⟩

theorem witness_LoopbackMirrorsDataOut :
    atLastSample.env = .loopback ∧ atLastSample.mosi.written = true ∧ Inv atLastSample ∧
    enabled atLastSample = .micro (.uSampleMiso 0) := ⟨rfl, rfl, atLastSample_inv, rfl⟩

theorem witness_NominalDurations : (1 : BitVec 32) ≠ 0 ∧ (4294967295 : BitVec 32) ≠ 0 := by decide

theorem witness_ElementsAreWrittenOnlyByTheirOwn :
    exec .uWait (running .qwr 3) = .next (emit (.uop .uWait .nothing) { running .qwr 3 with seqIdx := 4 }) := rfl

theorem witness_TraceGrowsByAtMostOneEvent :
    (atEnd.rstNow = false ∧ step atEnd = .next (complete (tick atEnd))) ∧
    ((ready 0).rstNow = false ∧ step (ready 0) = .next (tick (ready 0))) := ⟨⟨rfl, rfl⟩, ⟨rfl, rfl⟩⟩

theorem witness_FaultedDoesNothing :
    (faulted.seqState = .faulted ∧ faulted.rstNow = false) ∧
    (offered 0 0x1100000000).rstNow = false ∧
    after (fun t => t.seqState) (step (offered 0 0x1100000000)) = some .faulted := by decide

theorem witness_FaultRecordIsSticky :
    Inv faulted ∧ faulted.faultCode ≠ .noFault ∧ faulted.rstNow = false ∧ step faulted = .next (tick faulted) ∧
    ({ faulted with rstLine := [true] } : State).rstNow = true ∧
    after (fun t => t.seqState) (step { faulted with rstLine := [true] }) = some .idle :=
  ⟨faulted_inv, by decide, rfl, rfl, rfl, by decide⟩

theorem witness_NoFaultWhileBusy : Inv atToggle ∧ atToggle.seqState = .busy ∧ atToggle.rstNow = false :=
  ⟨atToggle_inv, rfl, rfl⟩

theorem witness_SoundStatesAlwaysStep : Inv atToggle ∧ atToggle.separatePads := by
  refine ⟨atToggle_inv, ?_⟩
  unfold State.separatePads; decide

theorem witness_IdleWithoutCommandChangesNothing :
    (ready 0).seqState = .idle ∧ (ready 0).host = [] ∧ (ready 0).rstNow = false := ⟨rfl, rfl, rfl⟩

/-- A running command, and the accept step that faults. -/
theorem witness_FrequencyDecidesNothing :
    (step atEnd = .next (complete (tick atEnd)) ∧ atEnd.rstNow = false ∧
      ∀ n, enabled atEnd ≠ .accept (.cfgfreq n)) ∧
    (after (fun t => t.seqState) (step { State.reset with host := [0x2000000005] }) = some .faulted ∧
      ∀ n, enabled { State.reset with host := [0x2000000005] } ≠ .accept (.cfgfreq n)) := by
  refine ⟨⟨rfl, rfl, fun n h => ?_⟩, by decide, fun n h => ?_⟩
  · have h' : Enabled.complete = .accept (.cfgfreq n) := h
    cases h'
  · have h' : Enabled.accept (.xfer 5) = .accept (.cfgfreq n) := h
    cases h'

theorem witness_UnwrittenLevelIsFixed :
    State.reset.rstNow = false ∧ step State.reset = .next (tick State.reset) ∧
    (tick State.reset).sck.written = false ∧ (tick State.reset).mosi.written = false ∧
    (tick State.reset).qout.written = false := ⟨rfl, rfl, rfl, rfl, rfl⟩

theorem witness_PadsShowTheLatches :
    atEnd.sck.written = true ∧ atLastSample.mosi.written = true ∧ (ready 0).qdir = .inp ∧ atEnd.qdir = .out ∧
    atEnd.qout.written = true := by decide

theorem witness_ResetFromAnyState :
    ({ atToggle with rstLine := [true] } : State).rstNow = true ∧
    ({ faulted with rstLine := [true, true] } : State).rstNow = true ∧
    (∀ k ≤ 1, ({ faulted with rstLine := [true, true] } : State).rstLine[k]? = some true) :=
  ⟨rfl, rfl, by decide⟩

/-- R232: the first step of a reset closes the record; holding `rst` for a second step is the same reset. -/
theorem test_reset_held :
    after (fun t => (t.past, t.rstHeld)) (step { faulted with rstLine := [true, true] }) = some ([[]], true) ∧
    after (fun t => t.past) (step { State.reset with past := [[]], rstLine := [true] }) = some [[]] ∧
    after (fun t => t.rstHeld) (step State.reset) = some false := by decide

theorem witness_SoundnessIsKeptByEveryStep : Inv atEnd ∧ step atEnd = .next (complete (tick atEnd)) :=
  ⟨atEnd_inv, rfl⟩

theorem witness_ClockIsIdleBetweenCommands :
    Inv atEnd ∧ step atEnd = .next (complete (tick atEnd)) ∧ (complete (tick atEnd)).seqState = .idle ∧
    (complete (tick atEnd)).fmtValid = true := ⟨atEnd_inv, rfl, rfl, rfl⟩

theorem witness_LanesAreNeverSampledWhileDriven :
    (Inv atHighNibble ∧ enabled atHighNibble = .micro (.uSampleq .high)) ∧
    (Inv atLaneDrive ∧ enabled atLaneDrive = .micro (.uDriveq 0xB)) :=
  ⟨⟨atHighNibble_inv, rfl⟩, ⟨atLaneDrive_inv, rfl⟩⟩

theorem offered_inv (mode : BitVec 2) (w : CmdWord) : Inv (offered mode w) :=
  let h := ready_inv mode
  ⟨h.1, h.2, h.3, h.4, h.5, h.6, h.7, h.8, h.9, h.10, h.11, h.12⟩

theorem witness_CommandRunsToCompletion :
    Inv (offered 0 0x20000000A5) ∧ (offered 0 0x20000000A5).seqState = .idle ∧ (offered 0 0x20000000A5).noReset ∧
    (Op.xfer = .xfer → (offered 0 0x20000000A5).interleaved = false) ∧ commandOp (.xfer 0xA5) = some .xfer ∧
    (Instr.xfer 0xA5).wellFormed = true ∧
    (Op.xfer.isTransfer = true → (offered 0 0x20000000A5).configured = true) ∧
    (offered 0 0x20000000A5).host = commandWord (.xfer 0xA5) :: [] :=
  ⟨offered_inv _ _, rfl, noReset_of_nil rfl, fun _ => by decide, rfl, rfl, fun _ => rfl, rfl⟩

theorem witness_CommandRunsToCompletion_cfgfreq :
    commandOp (.cfgfreq 1) = some .cfgfreq ∧ (Instr.cfgfreq 1).wellFormed = true ∧
    ({ State.reset with host := [0x1100000001] } : State).host = commandWord (.cfgfreq 1) :: [] := ⟨rfl, rfl, rfl⟩

/-- Idle, configured in mode 3, `XFER 0xA5` presented, loopback. -/
def loopbackOffer : State := { offered 3 0x20000000A5 with env := .loopback }

theorem loopbackOffer_inv : Inv loopbackOffer :=
  let h := ready_inv 3
  ⟨h.1, h.2, h.3, h.4, h.5, h.6, h.7, h.8, h.9, h.10, h.11, h.12⟩

theorem witness_LoopbackTransferReturnsTheByte :
    Inv loopbackOffer ∧ loopbackOffer.seqState = .idle ∧ loopbackOffer.noReset ∧ loopbackOffer.interleaved = false ∧
    loopbackOffer.configured = true ∧ loopbackOffer.env = .loopback ∧
    loopbackOffer.host = commandWord (.xfer 0xA5) :: [] :=
  ⟨loopbackOffer_inv, rfl, noReset_of_nil rfl, by decide, rfl, rfl, rfl⟩

/-- The fixture of V-XF9; one mode of each phase. -/
theorem witness_TransferAssemblesItsSamples :
    Inv (offered 1 0x200000003C) ∧ (offered 1 0x200000003C).cfgMode.extractLsb' 0 1 = 1 ∧
    Inv (offered 2 0x200000003C) ∧ (offered 2 0x200000003C).cfgMode.extractLsb' 0 1 = 0 ∧
    (offered 1 0x200000003C).seqState = .idle ∧ (offered 1 0x200000003C).noReset ∧
    (offered 1 0x200000003C).interleaved = false ∧ (offered 1 0x200000003C).configured = true ∧
    (offered 1 0x200000003C).host = commandWord (.xfer 0x3C) :: [] ∧
    ({ offered 1 0x200000003C with env := .scripted [1, 0, 1, 0, 0, 1, 0, 1] [] } : State).env =
      .scripted [1, 0, 1, 0, 0, 1, 0, 1] [] ∧ 8 ≤ ([1, 0, 1, 0, 0, 1, 0, 1] : List Bit).length :=
  ⟨offered_inv _ _, rfl, offered_inv _ _, rfl, rfl, noReset_of_nil rfl, by decide, rfl, rfl, rfl, by decide⟩

theorem witness_TransferLeavesBehind :
    Inv (offered 2 0x2000000001) ∧ (offered 2 0x2000000001).seqState = .idle ∧ (offered 2 0x2000000001).noReset ∧
    (offered 2 0x2000000001).interleaved = false ∧ (offered 2 0x2000000001).configured = true ∧
    (offered 2 0x2000000001).host = commandWord (.xfer 1) :: [] :=
  ⟨offered_inv _ _, rfl, noReset_of_nil rfl, by decide, rfl, rfl⟩

theorem witness_QuadWriteSeenByAMonitor :
    Inv (offered 2 0x21000000B4) ∧ (offered 2 0x21000000B4).seqState = .idle ∧ (offered 2 0x21000000B4).noReset ∧
    (offered 2 0x21000000B4).configured = true ∧ (offered 2 0x21000000B4).host = commandWord (.qwr 0xB4) :: [] ∧
    (offered 2 0x21000000B4).separatePads :=
  ⟨offered_inv _ _, rfl, noReset_of_nil rfl, rfl, rfl, by unfold State.separatePads; decide⟩

/-- The two ends of the range of steps, and the step counts where the clauses meet. -/
theorem witness_QuadWriteSeenByAMonitor_steps : ∀ k ∈ [3, 4, 5, 6, 7, 8, 9, 10, 11, 13], 3 ≤ k ∧ k ≤ 13 := by decide

/-- V-QW1: the monitor reads the upper nibble right after the first toggle. -/
theorem test_monitor_first_pulse : after (fun t => t.monitor) (step atToggle) = some (some 0xB) := by decide

/-- V-QW1: the leading edge is one reading of the four lanes, 1, 1, 0, 1 for `0xB`; the drive before it is none. -/
theorem test_quadMonitor_reads_once :
    quadMonitor .leadingEdge 1 atToggle = [[.driven 1, .driven 1, .driven 0, .driven 1]] ∧
    quadMonitor .leadingEdge 1 atLaneDrive = [] := by decide

/-- R84, R38: a monitor that chooses the leading edge inside a `QRD` finds no lane driven. -/
theorem test_quadMonitor_quad_read :
    quadMonitor .leadingEdge 1 (running .qrd 1) = [[.notDriven, .notDriven, .notDriven, .notDriven]] := by decide

theorem witness_QuadWriteLeavesBehind :
    Inv (offered 1 0x21000000FF) ∧ (offered 1 0x21000000FF).seqState = .idle ∧ (offered 1 0x21000000FF).noReset ∧
    (offered 1 0x21000000FF).configured = true ∧ (offered 1 0x21000000FF).host = commandWord (.qwr 0xFF) :: [] :=
  ⟨offered_inv _ _, rfl, noReset_of_nil rfl, rfl, rfl⟩

/-- The fixture of V-QR3. -/
theorem witness_QuadReadAgainstAFixture :
    Inv (offered 0 0x2200000000) ∧ (offered 0 0x2200000000).seqState = .idle ∧ (offered 0 0x2200000000).noReset ∧
    (offered 0 0x2200000000).configured = true ∧ (offered 0 0x2200000000).host = commandWord .qrd :: [] ∧
    ({ offered 0 0x2200000000 with env := .scripted [] [0xA, 0x5] } : State).env = .scripted [] [0xA, 0x5] :=
  ⟨offered_inv _ _, rfl, noReset_of_nil rfl, rfl, rfl, rfl⟩

/-- V-CFG3: `CFGFMT 8, 3` twice from reset. -/
theorem witness_ConfigureFormatIsIdempotent :
    ({ State.reset with host := [0x1000000308, 0x1000000308] } : State).seqState = .idle ∧
    ({ State.reset with host := [0x1000000308, 0x1000000308] } : State).noReset ∧
    ({ State.reset with host := [0x1000000308, 0x1000000308] } : State).host =
      commandWord (.cfgfmt 8 3) :: commandWord (.cfgfmt 8 3) :: [] := ⟨rfl, noReset_of_nil rfl, rfl⟩

/-- V-CFG7. -/
theorem witness_ConfigureFrequencyTouchesNoPin :
    (offered 0 0x1100000002).seqState = .idle ∧ (offered 0 0x1100000002).noReset ∧ (2 : BitVec 32) ≠ 0 ∧
    (offered 0 0x1100000002).host = commandWord (.cfgfreq 2) :: [] := ⟨rfl, noReset_of_nil rfl, by decide, rfl⟩

/-! ### The framer's macros -/

/-- P1, lines 4 and 5: the response of the second `XFER` is the register value. -/
theorem test_rdmr_result : received (rdmr 0x00) [some 0xA5, some 0xA5] = [0xA5] := by decide

/-- P2, lines 10 to 13: three responses discarded, then the payload. -/
theorem test_read_result : received (read 0x1234 1 0x00) [some 0x00, some 0x00, some 0x00, some 0x5A] = [0x5A] := by
  decide

/-- P3, lines 10 to 14, the dummy read answered with 0x99. -/
theorem test_qread_result : received (qread 0xFFFF 1) [none, none, none, some 0x99, some 0x04] = [0x04] := by decide

/-- P3, lines 4 to 7. -/
theorem test_qwrite_words :
    hostWords (qwrite 0xFFFF [0x04]) = [0x2100000002, 0x21000000FF, 0x21000000FF, 0x2100000004] := by decide

/-- R197: 0x38 and 0xFF, each as a single byte in its own transaction. -/
theorem test_chip_io_transactions :
    setChipIo .singleWire .enterQuad = [.csAssert, .issue (.xfer 0x38), .csDeassert] ∧
    setChipIo .quad .exitToStandard = [.csAssert, .issue (.qwr 0xFF), .csDeassert] := by decide

/-- R101: the completion step of a `QRD` brings the host one byte, that of a `QWR` none. -/
theorem test_completions :
    after (fun t => completionsSince (running .qrd 11) t) (step { running .qrd 11 with rx := 0xA5 }) = some [some 0xA5] ∧
    after (fun t => completionsSince atEnd t) (step atEnd) = some [none] := by decide

/-- `ready`, with the words of a host program presented. -/
def programmed (p : List HostLine) : State := { ready 0 with host := hostWords p }

theorem programmed_inv (p : List HostLine) : Inv (programmed p) :=
  let h := ready_inv 0
  ⟨h.1, h.2, h.3, h.4, h.5, h.6, h.7, h.8, h.9, h.10, h.11, h.12⟩

theorem witness_FramerWords (p : List HostLine) :
    Inv (programmed p) ∧ (programmed p).seqState = .idle ∧ (programmed p).noReset ∧ (programmed p).configured = true ∧
    (programmed p).separatePads ∧ (programmed p).host = hostWords p ++ [] :=
  ⟨programmed_inv p, rfl, noReset_of_nil rfl, rfl, (by decide : Pins.separate.laneAlias = false), (List.append_nil _).symm⟩

/-- The four reading macros, the empty payload among them. -/
theorem witness_FramerWords_programs :
    (programmed (rdmr 0x00)).host = [0x2000000005, 0x2000000000] ∧
    (programmed (read 0x1234 0 0x00)).host = [0x2000000003, 0x2000000012, 0x2000000034] ∧
    (programmed qrdmr).host = [0x2100000005, 0x2200000000] ∧
    (programmed (qread 0xFFFF 1)).host =
      [0x2100000003, 0x21000000FF, 0x21000000FF, 0x2200000000, 0x2200000000] := by decide

end Sys2Proof.Tests
end

section
/-! PROOFS. 10_state.md R39: between commands the clock is at its idle level. -/

namespace Sys2Proof.Machine

/-- R121, R208: the accept step of a command leaves `IDLE`, for `BUSY` or for `FAULTED`. -/
theorem acceptNext_seqState_ne_idle {i : Instr} {s t : State} (h : AcceptNext i s t) : t.seqState ≠ .idle := by
  cases h <;> simp [*]

/-- What leads into `IDLE`: a reset, a quiet step that was there before, or the completion of a command (R120). -/
theorem step_to_idle_cases {s t : State} (h : step s = .next t) (ht : t.seqState = .idle) :
    t = tick (takeReset s) ∨ (s.seqState = .idle ∧ t = tick s) ∨ (enabled s = .complete ∧ t = complete (tick s)) := by
  cases step_next_cases h with
  | reset _ hst => exact .inl hst
  | quiet _ hst => subst hst; exact .inr (.inl ⟨ht, rfl⟩)
  | accept i he hex =>
    obtain ⟨_, hs, w, rest, _, hd⟩ := enabled_accept he
    have hacc : AcceptNext i (popHost (tick s)) t := exec_command_next (decode_cmd_not_microOp hd) hs hex
    exact absurd ht (acceptNext_seqState_ne_idle hacc)
  | illegal w _ hst => simp [hst] at ht
  | micro u he hst => simp [hst, (enabled_micro he).2.1] at ht
  | complete he hst => exact .inr (.inr ⟨he, hst⟩)

/-- At the end of its micro-program every command has the clock at the configured idle level: `CFGFMT` has driven it
there (R150), and the toggles of any other command come in pairs (R163, R170, R173). -/
theorem sck_of_complete_enabled {s : State} (hinv : Inv s) (he : enabled s = .complete) (hf : s.fmtValid = true) :
    s.sck = .driven (cpol s.cfgMode) := by
  obtain ⟨_, hb, hidx⟩ := enabled_complete he
  by_cases hop : s.seqOp = .cfgfmt
  · have hlen : s.uprog.length = 1 := by rw [State.uprog, length_uprog, hop]; rfl
    exact hinv.clock_set hb hop (by omega)
  · rw [hinv.clock_run hb hop hf, hidx, State.uprog, clockAfter_whole hop]

/-- Settles O49, by the three steps that lead into `IDLE`: a reset clears the valid bit, a quiet step leaves the clock
where the invariant has it between commands, and a completion finds it back at idle. -/
theorem clockIsIdleBetweenCommands : Obligations.ClockIsIdleBetweenCommands := by
  intro s t hinv hstep hidle hf
  rcases step_to_idle_cases hstep hidle with rfl | ⟨hs, rfl⟩ | ⟨he, rfl⟩
  · simp at hf
  · exact hinv.clock_rest (by simp [hs]) hf
  · exact sck_of_complete_enabled (s := s) hinv he hf

end Sys2Proof.Machine
end

section
/-! PROOFS. R83: under the loopback fixture a sample of `MISO` is the level of the `MOSI` latch. -/

namespace Sys2Proof.Machine

/-- R38: once written, a latch shows its own level, whatever its free value. -/
theorem shown_of_written {w : Nat} {l : Latch w} (free : BitVec w) (h : l.written = true) :
    l.shown free = l.level := by
  simp [Latch.shown, h]

/-- R161: an `XFER` begins by driving bit 7 on `MOSI`, in both clock phases. -/
theorem uprog_xfer_head (mode : BitVec 2) (tx : Byte) : (uprog .xfer mode tx)[0]? = some (.uDriveMosi (bitAt tx 7)) := by
  simp only [uprog, bitprog]
  split <;> rfl

/-- A sample of `MISO` never stands first in a micro-program: only an `XFER` has one, and its first micro-op drives
`MOSI`. -/
theorem uSampleMiso_idx_ne_zero {op : Op} {mode : BitVec 2} {tx : Byte} {k : Nat} {i : BitVec 3}
    (h : (uprog op mode tx)[k]? = some (.uSampleMiso i)) : k ≠ 0 := by
  rintro rfl
  obtain rfl := xfer_of_uSampleMiso_mem (List.mem_of_getElem? h)
  simp [uprog_xfer_head] at h

/-- In a sound state about to sample `MISO` the `MOSI` latch has been driven. -/
theorem mosi_written_of_sample_enabled {s : State} {i : BitVec 3} (hinv : Inv s)
    (he : enabled s = .micro (.uSampleMiso i)) : s.mosi.written = true := by
  obtain ⟨_, hbusy, hget⟩ := enabled_micro he
  have hxfer : s.seqOp = .xfer := xfer_of_uSampleMiso_mem (List.mem_of_getElem? hget)
  exact hinv.mosi_driven hbusy hxfer (uSampleMiso_idx_ne_zero hget)

/-- Settles O32: the read answers the level `MOSI` shows, which is that of a written latch, and by the invariant the
latch is written when a sample is enabled, because every `XFER` drives `MOSI` first. -/
theorem loopbackMirrorsDataOut : Obligations.LoopbackMirrorsDataOut := by
  refine ⟨fun s henv hw => ?_, fun s i => mosi_written_of_sample_enabled⟩
  rw [pinReadMiso_loopback henv, State.mosiLevel, shown_of_written _ hw]

end Sys2Proof.Machine
end

section
/-! PROOFS. 30_encoding.md R103: the codes of the eight micro-ops. -/

namespace Sys2Proof.Machine

@[simp] theorem bitOfDir_dirOfBit (b : Bit) : bitOfDir (dirOfBit b) = b := by
  revert b; decide

@[simp] theorem bitOfHalf_halfOfBit (b : Bit) : bitOfHalf (halfOfBit b) = b := by
  revert b; decide

/-- A code whose upper bits are the fixed bits `c` of a pattern of R103 is `c` followed by its argument bits. -/
theorem append_argument_of_pattern {m n : Nat} {u : BitVec (m + n)} {c : BitVec m} (h : u.extractLsb' n m = c) :
    c ++ u.extractLsb' 0 n = u := by
  rw [← h, BitVec.extractLsb'_append_extractLsb']

/-- R103: the micro-op that a code decodes to has that code; a pattern with an argument is put together again from its
fixed bits and its argument bits. -/
theorem encode_of_decodeUop {u : Byte} {i : Instr} (h : decodeUop u = .ok i) : encode i = .uop u := by
  unfold decodeUop at h
  split_ifs at h with hWait hMosi hMiso hToggle hSck hQdir hDriveq hSampleq <;> cases h
  · rw [hWait]; rfl
  · exact congrArg Code.uop (append_argument_of_pattern hMosi)
  · exact congrArg Code.uop (append_argument_of_pattern hMiso)
  · rw [hToggle]; rfl
  · exact congrArg Code.uop (append_argument_of_pattern hSck)
  · rw [encode, bitOfDir_dirOfBit]
    exact congrArg Code.uop (append_argument_of_pattern hQdir)
  · exact congrArg Code.uop (append_argument_of_pattern hDriveq)
  · rw [encode, bitOfHalf_halfOfBit]
    exact congrArg Code.uop (append_argument_of_pattern hSampleq)

/-- R102: a micro-op has an 8-bit code; only the five commands have a command word. -/
theorem exists_encode_eq_uop {i : Instr} (h : isMicroOp i = true) : ∃ u, encode i = .uop u := by
  cases hc : encode i with
  | uop u => exact ⟨u, rfl⟩
  | cmd w => cases i <;> simp [isMicroOp, encode] at h hc

/-- Settles O5: the table row by row, over the few arguments of each row; a value that decodes is the code of the
micro-op it decodes to; and a micro-program holds micro-ops only, each of which has a code. -/
theorem microOpCodes : Obligations.MicroOpCodes :=
  ⟨rfl, by decide, by decide, rfl, by decide, rfl, rfl, by decide, rfl, rfl,
    fun _ ⟨i, hi⟩ => ⟨i, encode_of_decodeUop hi⟩,
    fun _ _ _ _ hi => exists_encode_eq_uop (isMicroOp_of_mem_uprog hi)⟩

end Sys2Proof.Machine
end

section
/-! PROOFS. 40_sequencer_uops.md R136: the lengths and counts of the micro-programs. -/

namespace Sys2Proof.Machine

/-- R161: the two clock phases play the same six micro-ops for a bit; they differ only in where the sample stands. -/
theorem bitprog_perm (mode : BitVec 2) (tx : Byte) (i : BitVec 3) :
    (bitprog mode tx i).Perm
      [.uDriveMosi (bitAt tx i.toNat), .uSampleMiso i, .uToggleSck, .uWait, .uToggleSck, .uWait] := by
  unfold bitprog
  split
  · exact .refl _
  · exact .cons _ (List.perm_middle (l₁ := [Instr.uToggleSck, Instr.uWait]))

/-- R124: an `XFER` plays the micro-ops of eight bits, so a property that `n` of the six have, whatever bit is driven and
wherever it is placed, holds of eight times `n` in the whole. -/
theorem countP_uprog_xfer {p : Instr → Bool} {n : Nat} (mode : BitVec 2) (tx : Byte)
    (h : ∀ b i, [.uDriveMosi b, .uSampleMiso i, .uToggleSck, .uWait, .uToggleSck, .uWait].countP p = n) :
    (uprog .xfer mode tx).countP p = 8 * n := by
  have hbit : ∀ i, (bitprog mode tx i).countP p = n := fun i =>
    ((bitprog_perm mode tx i).countP_eq p).trans (h _ _)
  simp only [uprog, List.countP_append, hbit]
  omega

/-- Settles O33, row by row of the table: the programs of every command but `XFER` are literal lists, and an `XFER` has
eight times what one bit has, in both clock phases: two toggles, two waits, a drive, a sample and no direction set. -/
theorem microProgramCounts : Obligations.MicroProgramCounts := by
  intro mode tx op
  simp only [List.count, ← List.countP_eq_length_filter]
  cases op with
  | xfer =>
    exact ⟨length_uprog _ _ _,
      countP_uprog_xfer (n := 2) mode tx fun _ _ => rfl, countP_uprog_xfer (n := 2) mode tx fun _ _ => rfl,
      countP_uprog_xfer (n := 1) mode tx fun _ _ => rfl, countP_uprog_xfer (n := 1) mode tx fun _ _ => rfl,
      countP_uprog_xfer (n := 0) mode tx fun _ _ => rfl, rfl⟩
  | cfgfmt | cfgfreq | qwr | qrd => exact ⟨length_uprog _ _ _, rfl, rfl, rfl, rfl, rfl, rfl⟩

end Sys2Proof.Machine
end

section
/-! PROOFS. 40_sequencer_uops.md R123: the completion step. -/

namespace Sys2Proof.Machine

/-- R120: in `BUSY` with the index at the end of the micro-program, the step is the completion. -/
theorem step_of_busy_at_end {s : State} (hb : s.seqState = .busy) (hr : s.rstNow = false)
    (hidx : s.seqIdx = s.uprog.length) : step s = .next (complete (tick s)) := by
  have hend : s.uprog[s.seqIdx]? = none := List.getElem?_eq_none hidx.ge
  simp only [step_busy_eq hb hr, hend, if_pos hidx]

/-- R101: the commands that return a byte. -/
theorem returnsByte_iff {op : Op} : op.returnsByte = true ↔ op = .xfer ∨ op = .qrd := by
  cases op <;> decide

/-- Settles O8: at the end of the program the step is the completion, and `XFER` and `QRD` are the commands whose
completion carries a byte. -/
theorem completionStep : Obligations.CompletionStep := by
  intro s hb hr hidx
  refine ⟨s.quadRun || s.seqOp.isQuad, ?_⟩
  rw [step_of_busy_at_end hb hr hidx, tick_of_low hr]
  simp only [complete, emit, returnsByte_iff]

end Sys2Proof.Machine
end

section
/-! PROOFS. 41_config.md R150, R153: a whole `CFGFMT`, and a second one with the same arguments. -/

namespace Sys2Proof.Machine

section
variable {mode : BitVec 2} {s : State} {rest : List CmdWord}

/-- R150: what a whole `CFGFMT 8, mode` makes of the engine, with the input lines three steps on. -/
def afterCfgfmt (mode : BitVec 2) (s : State) : State :=
  { s with
    cfgMode := mode, fmtValid := true, sck := .driven (cpol mode), seqState := .idle, seqOp := .cfgfmt, seqIdx := 1,
    host := s.host.tail, rstLine := s.rstLine.drop 3, rstHeld := false,
    trace := .done none :: .uop (.uSetSck (cpol mode)) .nothing :: .accept (commandWord (.cfgfmt 8 mode)) :: s.trace }

/-- R92: the word of a `CFGFMT 8` decodes to it. -/
theorem decode_commandWord_cfgfmt (mode : BitVec 2) :
    decode (.cmd (commandWord (.cfgfmt 8 mode))) = .ok (.cfgfmt 8 mode) := by
  revert mode; decide

/-- R121, R150: what the accept step of a presented `CFGFMT 8, mode` makes of the engine. -/
def acceptedCfgfmt (mode : BitVec 2) (s : State) : State :=
  beginCommand .cfgfmt (commandWord (.cfgfmt 8 mode)) { popHost (tick s) with cfgMode := mode, fmtValid := true }

theorem step_of_presented_cfgfmt (hs : s.seqState = .idle) (hr : s.noReset)
    (hh : s.host = commandWord (.cfgfmt 8 mode) :: rest) : step s = .next (acceptedCfgfmt mode s) := by
  have hidle : (popHost (tick s)).seqState = .idle := hs
  rw [step_of_presented hs hr hh (decode_commandWord_cfgfmt mode), exec, execCfgfmt, whenIdle_of_idle hidle]
  exact if_pos rfl

/-- R124, R123: the one micro-op and the completion step take the accepted command to its end; `CFGFMT` is no quad
command. -/
theorem complete_plays_acceptedCfgfmt (hr : s.noReset) :
    complete (tick (plays (acceptedCfgfmt mode s).uprog (acceptedCfgfmt mode s))) = afterCfgfmt mode s := by
  have hlow : (plays (acceptedCfgfmt mode s).uprog (acceptedCfgfmt mode s)).rstNow = false :=
    rstNow_of_noReset (noReset_plays _ _ (noReset_of_tail hr rfl))
  have hline : s.rstLine.drop 3 = s.rstLine.tail.tail.tail := by simp [← List.drop_one]
  rw [tick_of_low hlow, afterCfgfmt, hline, ← Bool.or_false s.quadRun]
  rfl

/-- R150: a presented `CFGFMT 8` completes in three steps: accept, drive the clock to the idle level, done. -/
theorem run_cfgfmt (hs : s.seqState = .idle) (hr : s.noReset) (hh : s.host = commandWord (.cfgfmt 8 mode) :: rest) :
    Host.Core.run core 3 s = .next (afterCfgfmt mode s) := by
  rw [← complete_plays_acceptedCfgfmt hr]
  exact run_accepted (step_of_presented_cfgfmt hs hr hh) rfl rfl (noReset_of_tail hr rfl)

end

/-- R153: the state a `CFGFMT` leaves already has all that a second one writes, but for the input lines and the trace. -/
theorem afterCfgfmt_afterCfgfmt (mode : BitVec 2) (s : State) :
    afterCfgfmt mode (afterCfgfmt mode s) = { afterCfgfmt mode s with
      host := s.host.tail.tail, rstLine := (s.rstLine.drop 3).drop 3,
      trace := .done none :: .uop (.uSetSck (cpol mode)) .nothing ::
        .accept (commandWord (.cfgfmt 8 mode)) :: (afterCfgfmt mode s).trace } := rfl

/-- R38: a pad shows what the latches, the lane direction and, for a latch not yet written, the earlier history make of
it. -/
theorem pad_congr {s t : State} (hsck : t.sck = s.sck) (hmosi : t.mosi = s.mosi) (hqout : t.qout = s.qout)
    (hqdir : t.qdir = s.qdir) (hpast : t.past = s.past) (h : PinHandle) : t.pad h = s.pad h := by
  cases h <;> simp only [State.pad, State.sckLevel, State.mosiLevel, State.qoutLevel, hsck, hmosi, hqout, hqdir, hpast]

/-- Settles O58: both commands run to `afterCfgfmt`, and a second application of it changes only the input lines and
the trace, so the latches, the lane direction and with them the pads are as they were. -/
theorem configureFormatIsIdempotent : Obligations.ConfigureFormatIsIdempotent := by
  intro s mode rest hs hr hh
  have hr' : (afterCfgfmt mode s).noReset := fun b hb => hr b (List.mem_of_mem_drop hb)
  have hh' : (afterCfgfmt mode s).host = commandWord (.cfgfmt 8 mode) :: rest := by simp [afterCfgfmt, hh]
  refine ⟨_, run_cfgfmt hs hr hh, rfl, rfl, rfl, _, run_cfgfmt rfl hr' hh', ?_, pad_congr rfl rfl rfl rfl rfl⟩
  rw [afterCfgfmt_afterCfgfmt, hh]
  rfl

end Sys2Proof.Machine
end

section
/-! PROOFS. 42_single_wire.md R161 to R165: a whole `XFER`, bit by bit. -/

namespace Sys2Proof.Machine

/-! ### From the accept step into the middle of a micro-program -/

section
variable {s b : State} {us vs : List Instr} {u : Instr}

/-- R120: a command accepted into `b` has, one step per micro-op later, played any first part of its micro-program. -/
theorem run_accepted_plays (hacc : step s = .next b) (hb : b.seqState = .busy) (hi : b.seqIdx = 0) (hr : b.noReset)
    (hu : b.uprog = us ++ vs) : Host.Core.run core (us.length + 1) s = .next (plays us b) := by
  rw [run_succ hacc]
  refine run_plays us b hb hr fun k hk => ?_
  rw [hi, Nat.zero_add, hu, List.getElem?_append_left hk]

/-- R120: when a command has played the first part of its micro-program, the next micro-op of it is enabled. -/
theorem enabled_plays (hb : b.seqState = .busy) (hi : b.seqIdx = 0) (hr : b.noReset) (hu : b.uprog = us ++ u :: vs) :
    enabled (plays us b) = .micro u := by
  have hget : (plays us b).uprog[(plays us b).seqIdx]? = some u := by
    rw [plays_seqIdx, hi, State.uprog, plays_seqOp, plays_cfgMode, plays_tx, ← State.uprog, hu]
    simp
  rw [enabled_busy (rstNow_of_noReset (noReset_plays _ _ hr)) (by rwa [plays_seqState]), enabledInBusy, hget]

end

/-! ### One bit: its sample and its events -/

/-- R161: the micro-ops of bit `i` up to its sample. -/
def leadIn (mode : BitVec 2) (tx : Byte) (i : BitVec 3) : List Instr :=
  .uDriveMosi (bitAt tx i.toNat) :: if cpha mode = 0#1 then [] else [.uToggleSck, .uWait]

/-- R161: the micro-ops of a bit after its sample. -/
def leadOut (mode : BitVec 2) : List Instr :=
  if cpha mode = 0#1 then [.uToggleSck, .uWait, .uToggleSck, .uWait] else [.uToggleSck, .uWait]

/-- The value the environment answers to the one sample of bit `i`, where `s` is the state before the bit. -/
def bitSample (mode : BitVec 2) (tx : Byte) (i : BitVec 3) (s : State) : Bit :=
  (pinReadMiso (plays (leadIn mode tx i) s)).1

/-- R161: the events of bit `i`, oldest first, when its sample is `b`. -/
def pulse (mode : BitVec 2) (tx : Byte) (i : BitVec 3) (b : Bit) : List Event :=
  if cpha mode = 0#1 then
    [.uop (.uDriveMosi (bitAt tx i.toNat)) .nothing, .uop (.uSampleMiso i) (.bit b),
     .uop .uToggleSck .nothing, .uop .uWait .nothing, .uop .uToggleSck .nothing, .uop .uWait .nothing]
  else
    [.uop (.uDriveMosi (bitAt tx i.toNat)) .nothing, .uop .uToggleSck .nothing, .uop .uWait .nothing,
     .uop (.uSampleMiso i) (.bit b), .uop .uToggleSck .nothing, .uop .uWait .nothing]

/-- What the environment answers on `MISO` does not depend on the `rst` line (R66). -/
@[simp] theorem pinReadMiso_tick (s : State) : pinReadMiso (tick s) = pinReadMiso s := rfl

section
variable (mode : BitVec 2) (tx : Byte) (i : BitVec 3) (b : Bit) (s : State)

theorem pulse_sampledBits : (pulse mode tx i b).filterMap Event.sampledBit = [(i, b)] := by
  unfold pulse; split <;> rfl

/-- R163: two edges of the clock for a bit, so one clock pulse. -/
theorem pulse_toggles : (pulse mode tx i b).countP Event.isToggle = 2 := by
  unfold pulse; split <;> rfl

theorem bitprog_eq_leadIn_sample_leadOut : bitprog mode tx i = leadIn mode tx i ++ .uSampleMiso i :: leadOut mode := by
  unfold bitprog leadIn leadOut; split <;> rfl

theorem length_leadIn : (leadIn mode tx i).length = if cpha mode = 0#1 then 1 else 3 := by
  unfold leadIn; split <;> rfl

theorem plays_leadIn_env : (plays (leadIn mode tx i) s).env = s.env := by
  unfold leadIn; split <;> simp [plays]

theorem plays_leadIn_rx : (plays (leadIn mode tx i) s).rx = s.rx := by
  unfold leadIn; split <;> simp [plays]

/-- R161: when a bit is sampled it stands on `MOSI`. -/
theorem plays_leadIn_mosi : (plays (leadIn mode tx i) s).mosi = .driven (bitAt tx i.toNat) := by
  unfold leadIn; split <;> simp [plays]

/-- R165: with the clock at `c` before a bit, the sample finds it there with `CPHA` 0 and at the other level with
`CPHA` 1. -/
theorem plays_leadIn_sck {c : Bit} (h : s.sck = .driven c) :
    (plays (leadIn mode tx i) s).sck = .driven (c ^^^ cpha mode) := by
  unfold leadIn
  split
  case isTrue h0 => simp [plays, h, h0]
  case isFalse h0 =>
    have h1 : cpha mode = 1#1 := (BitVec.eq_zero_or_eq_one _).resolve_left h0
    have hnot : c ^^^ 1#1 = ~~~c := BitVec.xor_allOnes
    simp [plays, h, State.sckLevel, h1, hnot]

theorem plays_leadOut_env : (plays (leadOut mode) s).env = s.env := by
  unfold leadOut; split <;> simp [plays]

theorem plays_leadOut_rx : (plays (leadOut mode) s).rx = s.rx := by
  unfold leadOut; split <;> simp [plays]

/-- R127: a bit leaves the environment as its one sample did. -/
theorem plays_bitprog_env :
    (plays (bitprog mode tx i) s).env = (pinReadMiso (plays (leadIn mode tx i) s)).2 := by
  simp [bitprog_eq_leadIn_sample_leadOut, plays_append, plays_cons, plays_leadOut_env]

/-- R127: a bit adds its sample to `RX`, at its own position, and nothing else. -/
theorem plays_bitprog_rx :
    (plays (bitprog mode tx i) s).rx = s.rx ||| placeBit (bitSample mode tx i s) i := by
  simp [bitprog_eq_leadIn_sample_leadOut, plays_append, plays_cons, plays_leadOut_rx, plays_leadIn_rx, bitSample]

theorem plays_bitprog_trace :
    (plays (bitprog mode tx i) s).trace = (pulse mode tx i (bitSample mode tx i s)).reverse ++ s.trace := by
  unfold bitprog bitSample pulse leadIn
  split <;> simp [plays, uopSample]

end

/-! ### A run of bits -/

/-- The samples of the bits `is`, in the order taken, where `s` is the state before the first bit (R162). -/
def bitSamples (mode : BitVec 2) (tx : Byte) : List (BitVec 3) → State → List Bit
  | [], _ => []
  | i :: is, s => bitSample mode tx i s :: bitSamples mode tx is (plays (bitprog mode tx i) s)

section
variable {mode : BitVec 2} {tx : Byte}

theorem length_flatMap_bitprog (is : List (BitVec 3)) : (is.flatMap (bitprog mode tx)).length = 6 * is.length := by
  simp [List.length_flatMap, length_bitprog, Nat.mul_comm]

theorem plays_bits_rx (is : List (BitVec 3)) (s : State) :
    (plays (is.flatMap (bitprog mode tx)) s).rx =
      (List.zipWith placeBit (bitSamples mode tx is s) is).foldl (· ||| ·) s.rx := by
  induction is generalizing s with
  | nil => rfl
  | cons i is ih => rw [List.flatMap_cons, plays_append, ih, plays_bitprog_rx]; rfl

theorem plays_bits_trace (is : List (BitVec 3)) (s : State) :
    (plays (is.flatMap (bitprog mode tx)) s).trace =
      (List.zipWith (pulse mode tx) is (bitSamples mode tx is s)).flatten.reverse ++ s.trace := by
  induction is generalizing s with
  | nil => rfl
  | cons i is ih => rw [List.flatMap_cons, plays_append, ih, plays_bitprog_trace]; simp [bitSamples]

/-- R163: whole bits leave the clock where it was. -/
theorem plays_bits_sck (is : List (BitVec 3)) {s : State} {c : Bit} (h : s.sck = .driven c) :
    (plays (is.flatMap (bitprog mode tx)) s).sck = .driven c := by
  induction is generalizing s with
  | nil => exact h
  | cons i is ih => rw [List.flatMap_cons, plays_append, ih (plays_bitprog_sck mode tx i s h)]

/-- R66: a scripted environment answers the samples in the order of its script. -/
theorem bitSamples_scripted (is : List (BitVec 3)) {bs : List Bit} {ns : List Nibble} {s : State}
    (he : s.env = .scripted bs ns) (hlen : is.length ≤ bs.length) : bitSamples mode tx is s = bs.take is.length := by
  induction is generalizing s bs with
  | nil => rfl
  | cons i is ih =>
    obtain _ | ⟨b, bs⟩ := bs
    · simp at hlen
    have hread := pinReadMiso_scripted ((plays_leadIn_env mode tx i s).trans he)
    have henv : (plays (bitprog mode tx i) s).env = .scripted bs ns := by rw [plays_bitprog_env, hread]
    rw [bitSamples, ih henv (by simpa using hlen), bitSample, hread, List.length_cons, List.take_succ_cons]

/-- R83: the loopback fixture answers each sample with the bit that stands on `MOSI`, the bit being sent. -/
theorem bitSamples_loopback (is : List (BitVec 3)) {s : State} (he : s.env = .loopback) :
    bitSamples mode tx is s = is.map fun i => bitAt tx i.toNat := by
  induction is generalizing s with
  | nil => rfl
  | cons i is ih =>
    have hread := pinReadMiso_loopback ((plays_leadIn_env mode tx i s).trans he)
    have henv : (plays (bitprog mode tx i) s).env = .loopback := by rw [plays_bitprog_env, hread]
    rw [bitSamples, ih henv, bitSample, hread, State.mosiLevel, plays_leadIn_mosi, driven_shown, List.map_cons]

end

/-! ### The eight bits of a transfer -/

/-- R161: the bits of a byte in the order an `XFER` plays them. -/
def bitOrder : List (BitVec 3) := [7, 6, 5, 4, 3, 2, 1, 0]

theorem uprog_xfer_eq_flatMap (mode : BitVec 2) (tx : Byte) :
    uprog .xfer mode tx = bitOrder.flatMap (bitprog mode tx) := by
  simp [uprog, bitOrder]

/-- The bits played before bit `i` are the `7 - i` above it. -/
theorem bitOrder_split (i : BitVec 3) :
    bitOrder = bitOrder.take (7 - i.toNat) ++ i :: bitOrder.drop (8 - i.toNat) := by
  revert i; decide

/-- The samples of a transfer, one for each position. -/
theorem exists_bitSamples_eq_map (mode : BitVec 2) (tx : Byte) (s : State) :
    ∃ b : BitVec 3 → Bit, bitSamples mode tx bitOrder s = bitOrder.map b :=
  ⟨fun i => (bitSamples mode tx bitOrder s).getD (7 - i.toNat) 0, rfl⟩

/-- R162: eight bits placed into a cleared register, each at its own position, are the byte they make up. -/
theorem placeBits_eq_append (b : BitVec 3 → Bit) :
    (List.zipWith placeBit (bitOrder.map b) bitOrder).foldl (· ||| ·) (0 : Byte) =
      b 7 ++ b 6 ++ b 5 ++ b 4 ++ b 3 ++ b 2 ++ b 1 ++ b 0 := by
  simp only [bitOrder, List.map_cons, List.map_nil, List.zipWith_cons_cons, List.zipWith_nil_left, List.foldl_cons,
    List.foldl_nil]
  generalize b 7 = b7, b 6 = b6, b 5 = b5, b 4 = b4, b 3 = b3, b 2 = b2, b 1 = b1, b 0 = b0
  revert b7 b6 b5 b4 b3 b2 b1 b0
  decide

/-- R12: a byte is its eight bits. -/
theorem append_bitAt (v : Byte) :
    bitAt v 7 ++ bitAt v 6 ++ bitAt v 5 ++ bitAt v 4 ++ bitAt v 3 ++ bitAt v 2 ++ bitAt v 1 ++ bitAt v 0 = v := by
  revert v; decide

/-- R161: the micro-ops of a transfer before the sample of bit `i`: the bits above it, and its own lead-in. -/
def beforeSample (mode : BitVec 2) (tx : Byte) (i : BitVec 3) : List Instr :=
  (bitOrder.take (7 - i.toNat)).flatMap (bitprog mode tx) ++ leadIn mode tx i

theorem length_beforeSample (mode : BitVec 2) (tx : Byte) (i : BitVec 3) :
    (beforeSample mode tx i).length = 6 * (7 - i.toNat) + if cpha mode = 0#1 then 1 else 3 := by
  have hbits : (bitOrder.take (7 - i.toNat)).length = 7 - i.toNat := by revert i; decide
  rw [beforeSample, List.length_append, length_flatMap_bitprog, hbits, length_leadIn]

theorem uprog_xfer_eq_beforeSample_append (mode : BitVec 2) (tx : Byte) (i : BitVec 3) :
    uprog .xfer mode tx = beforeSample mode tx i ++ .uSampleMiso i ::
      (leadOut mode ++ (bitOrder.drop (8 - i.toNat)).flatMap (bitprog mode tx)) := by
  rw [uprog_xfer_eq_flatMap]
  conv_lhs => rw [bitOrder_split i]
  simp [beforeSample, bitprog_eq_leadIn_sample_leadOut mode tx i]

/-! ### A whole transfer -/

/-- R94: the word of an `XFER` decodes to it. -/
theorem decode_commandWord_xfer (v : Byte) : decode (.cmd (commandWord (.xfer v))) = .ok (.xfer v) := by
  simp only [decode, commandWord, encode, decodeCmd, opcodeField, extract_opcode_of_byte_fields,
    argField_extract_high24, extract_reserved_of_byte_fields, argField_extract_byte, extract_low_of_byte_fields]
  rfl

/-- R121, R160: what the accept step of a presented `XFER v` makes of the engine. -/
def acceptedXfer (v : Byte) (s : State) : State :=
  beginCommand .xfer (commandWord (.xfer v)) { popHost (tick s) with tx := v, rx := 0 }

/-- What a whole `XFER v` makes of the engine. -/
def afterXfer (v : Byte) (s : State) : State :=
  complete (tick (plays (bitOrder.flatMap (bitprog s.cfgMode v)) (acceptedXfer v s)))

section
variable {s : State} {v : Byte} {rest : List CmdWord}

theorem uprog_acceptedXfer : (acceptedXfer v s).uprog = bitOrder.flatMap (bitprog s.cfgMode v) :=
  uprog_xfer_eq_flatMap _ _

theorem afterXfer_cfgMode : (afterXfer v s).cfgMode = s.cfgMode := plays_cfgMode _ (acceptedXfer v s)

/-- R163: a transfer leaves the clock where it was. -/
theorem afterXfer_sck {c : Bit} (h : s.sck = .driven c) : (afterXfer v s).sck = .driven c :=
  plays_bits_sck bitOrder (s := acceptedXfer v s) h

/-- R162: `RX` is the eight samples, the first the most significant. -/
theorem afterXfer_rx {b : BitVec 3 → Bit} (h : bitSamples s.cfgMode v bitOrder (acceptedXfer v s) = bitOrder.map b) :
    (afterXfer v s).rx = b 7 ++ b 6 ++ b 5 ++ b 4 ++ b 3 ++ b 2 ++ b 1 ++ b 0 := by
  rw [← placeBits_eq_append b, ← h]
  exact plays_bits_rx bitOrder (acceptedXfer v s)

/-- R134, R161: the events of a transfer are those of its bits, between `Accept` and `Done`. -/
theorem afterXfer_trace {b : BitVec 3 → Bit}
    (h : bitSamples s.cfgMode v bitOrder (acceptedXfer v s) = bitOrder.map b) :
    (afterXfer v s).trace = .done (some (afterXfer v s).rx) ::
      (bitOrder.flatMap fun i => pulse s.cfgMode v i (b i)).reverse ++ .accept (commandWord (.xfer v)) :: s.trace := by
  rw [afterXfer, complete_trace, tick_seqOp, tick_trace, plays_seqOp, plays_bits_trace, h, List.zipWith_map_right,
    List.zipWith_self, ← List.flatMap_def]
  rfl

/-- R39: a sound configured engine has its clock at the idle level between commands. -/
theorem sck_of_idle_configured (hinv : Inv s) (hs : s.seqState = .idle) (hc : s.configured = true) :
    s.sck = .driven (cpol s.cfgMode) :=
  hinv.clock_rest (by simp [hs]) (Bool.and_eq_true_iff.mp hc).1

section
variable (hs : s.seqState = .idle) (hr : s.noReset) (ha : s.interleaved = false) (hc : s.configured = true)
  (hh : s.host = commandWord (.xfer v) :: rest)
include hs hr ha hc hh

theorem step_of_presented_xfer : step s = .next (acceptedXfer v s) := by
  have hidle : (popHost (tick s)).seqState = .idle := hs
  have hconf : (popHost (tick s)).configured = true := hc
  have hpads : ¬(popHost (tick s)).interleaved = true := ne_true_of_eq_false ha
  rw [step_of_presented hs hr hh (decode_commandWord_xfer v), exec, execXfer, whenIdle_of_idle hidle,
    whenConfigured_of_configured hconf, if_neg hpads]
  rfl

/-- R121, R123, R136: a presented `XFER` completes in fifty steps: accept, six micro-ops for each bit, done. -/
theorem run_xfer : Host.Core.run core 50 s = .next (afterXfer v s) := by
  rw [afterXfer, ← uprog_acceptedXfer]
  exact run_accepted (step_of_presented_xfer hs hr ha hc hh) rfl rfl (noReset_of_tail hr rfl)

/-- R161, R165: after the accept step and the micro-ops before the sample of bit `i`, that sample is about to be taken,
with the clock where the lead-in of the bit leaves it. -/
theorem run_xfer_to_sample (i : BitVec 3) : ∃ u,
    Host.Core.run core (6 * (7 - i.toNat) + if cpha s.cfgMode = 0#1 then 2 else 4) s = .next u ∧
    enabled u = .micro (.uSampleMiso i) ∧
    ∀ c, s.sck = .driven c → u.sck = .driven (c ^^^ cpha s.cfgMode) := by
  have hr' : (acceptedXfer v s).noReset := noReset_of_tail hr rfl
  have hprog := uprog_xfer_eq_beforeSample_append s.cfgMode v i
  have hsteps : (6 * (7 - i.toNat) + if cpha s.cfgMode = 0#1 then 2 else 4) =
      (beforeSample s.cfgMode v i).length + 1 := by
    rw [length_beforeSample]; split <;> rfl
  refine ⟨plays (beforeSample s.cfgMode v i) (acceptedXfer v s), ?run, enabled_plays rfl rfl hr' hprog,
    fun c hsck => ?clock⟩
  case run =>
    rw [hsteps]
    exact run_accepted_plays (step_of_presented_xfer hs hr ha hc hh) rfl rfl hr' hprog
  case clock =>
    rw [beforeSample, plays_append]
    exact plays_leadIn_sck _ _ _ _ (plays_bits_sck _ (s := acceptedXfer v s) hsck)

end

end

/-- Settles O52: under loopback each sample is the bit being sent, so `RX` is put together from the bits of `v`; and a
transfer leaves the clock where a sound idle engine has it. -/
theorem loopbackTransferReturnsTheByte : Obligations.LoopbackTransferReturnsTheByte := by
  intro s v rest hinv hs hr ha hc he hh
  have hsamples : bitSamples s.cfgMode v bitOrder (acceptedXfer v s) = bitOrder.map fun i => bitAt v i.toNat :=
    bitSamples_loopback bitOrder he
  have hrx : (afterXfer v s).rx = v := (afterXfer_rx hsamples).trans (append_bitAt v)
  refine ⟨afterXfer v s, run_xfer hs hr ha hc hh, ?_, afterXfer_sck (sck_of_idle_configured hinv hs hc),
    afterXfer_cfgMode, rfl⟩
  rw [afterXfer_trace hsamples, hrx]
  rfl

/-- Settles O53, with the samples `b` that the environment answers and the events of R161 for each bit: `RX` and the
trace are put together bit by bit, and the clock at a sample is where the lead-in takes it from the idle level. -/
theorem transferAssemblesItsSamples : Obligations.TransferAssemblesItsSamples := by
  intro s v rest hs hr ha hc hh
  obtain ⟨b, hb⟩ := exists_bitSamples_eq_map s.cfgMode v (acceptedXfer v s)
  refine ⟨afterXfer v s, fun i => pulse s.cfgMode v i (b i), b, run_xfer hs hr ha hc hh, afterXfer_rx hb, ?trace,
    fun i => ⟨pulse_sampledBits _ _ _ _, pulse_toggles _ _ _ _, rfl⟩, fun hinv i => ?clock,
    fun bs ns he hlen => ?script⟩
  case trace => rw [afterXfer_trace hb]; simp [bitOrder]
  case clock =>
    obtain ⟨u, hrun, hen, hsck⟩ := run_xfer_to_sample hs hr ha hc hh i
    exact ⟨u, hrun, hen, hsck _ (sck_of_idle_configured hinv hs hc)⟩
  case script => exact (bitSamples_scripted bitOrder (s := acceptedXfer v s) he hlen).symm.trans hb

end Sys2Proof.Machine
end

section
/-! PROOFS. 43_quad.md R170, R176: a whole `QWR`, as the lanes show it to a monitor. -/

namespace Sys2Proof.Machine

/-! ### What a monitor records of a whole command -/

section
variable (chosen : Event → State → Bool) (pads : List PinHandle)

theorem playsRecorded_append (us vs : List Instr) (s : State) :
    playsRecorded chosen pads (us ++ vs) s =
      playsRecorded chosen pads us s ++ playsRecorded chosen pads vs (plays us s) := by
  induction us generalizing s with
  | nil => rfl
  | cons u us ih => simp only [List.cons_append, playsRecorded, ih, plays_cons, List.append_assoc]

/-- R123: a command that has played its whole micro-program completes. -/
theorem step_plays_uprog {b : State} (hb : b.seqState = .busy) (hi : b.seqIdx = 0) (hr : b.noReset) :
    step (plays b.uprog b) = .next (complete (tick (plays b.uprog b))) := by
  apply step_of_busy_at_end
  · rw [plays_seqState, hb]
  · exact rstNow_of_noReset (noReset_plays _ _ hr)
  · rw [plays_seqIdx, hi, Nat.zero_add]
    simp only [State.uprog, plays_seqOp, plays_cfgMode, plays_tx]

/-- R84: of a command accepted into `b` a monitor that chooses micro-ops only has recorded what it records of the
micro-program. -/
theorem recorded_accepted {s b : State} (hacc : step s = .next b) (hb : b.seqState = .busy) (hi : b.seqIdx = 0)
    (hr : b.noReset) {w : CmdWord} (ht : b.trace = .accept w :: s.trace) (hAccept : ∀ t, chosen (.accept w) t = false)
    (hDone : ∀ r t, chosen (.done r) t = false) :
    recorded chosen pads (b.seqOp.microOps + 2) s = playsRecorded chosen pads b.uprog b := by
  have hprog : ∀ k, k < b.uprog.length → b.uprog[b.seqIdx + k]? = b.uprog[k]? := fun k _ => by rw [hi, Nat.zero_add]
  have hlen : b.seqOp.microOps + 2 = b.uprog.length + 1 + 1 := by rw [State.uprog, length_uprog]
  rw [hlen, recorded_succ _ _ hacc, readingAt_of_event _ _ ht, hAccept,
    recorded_add _ _ (run_plays _ _ hb hr hprog) 1, recorded_plays _ _ _ _ hb hr hprog,
    recorded_succ _ _ (step_plays_uprog hb hi hr),
    readingAt_of_event _ _ (s := plays b.uprog b) (complete_trace (tick _)), hDone]
  simp [recorded]

end

/-! ### A nibble on the lanes -/

/-- R176: the lanes are driven with `n`, and the clock is away from its idle level exactly if `away`. -/
structure PresentsNibble (n : Nibble) (away : Bool) (s : State) : Prop where
  qdir : s.qdir = .out
  qout : s.qout = .driven n
  sck : s.sck = .driven (if away then ~~~cpol s.cfgMode else cpol s.cfgMode)

/-- What a reading of the four lanes takes down when they are driven with `n`. -/
def nibbleReading (n : Nibble) : List PadView :=
  [.driven (laneBit n 0), .driven (laneBit n 1), .driven (laneBit n 2), .driven (laneBit n 3)]

/-- R171: the micro-ops that send one nibble. -/
def nibbleOut (n : Nibble) : List Instr := [.uDriveq n, .uToggleSck, .uWait, .uToggleSck, .uWait]

section
variable {n : Nibble} {away : Bool} {s : State}

theorem PresentsNibble.clockAway_eq (h : PresentsNibble n away s) : s.clockAway = away := by
  rw [State.clockAway, State.sckLevel, h.sck, driven_shown]
  generalize cpol s.cfgMode = c
  cases away <;> revert c <;> decide

theorem PresentsNibble.monitor_eq (h : PresentsNibble n away s) : s.monitor = if away then some n else none := by
  simp [State.monitor, h.clockAway_eq, h.qdir, State.qoutLevel, h.qout]

theorem PresentsNibble.reading_eq (h : PresentsNibble n away s) : s.reading laneHandles = nibbleReading n := by
  simp [State.reading, laneHandles, nibbleReading, State.pad, h.qdir, State.qoutLevel, h.qout]

theorem PresentsNibble.sck_at_idle (h : PresentsNibble n false s) : s.sck = .driven (cpol s.cfgMode) := by
  simpa using h.sck

theorem PresentsNibble.wait (h : PresentsNibble n away s) : PresentsNibble n away (afterUop .uWait (tick s)) :=
  ⟨h.qdir, h.qout, h.sck⟩

/-- R128: a toggle takes the clock away from idle, or back. -/
theorem PresentsNibble.toggle (h : PresentsNibble n away s) :
    PresentsNibble n (!away) (afterUop .uToggleSck (tick s)) := by
  refine ⟨h.qdir, h.qout, ?_⟩
  have hsck : (tick s).sckLevel = if away then ~~~cpol s.cfgMode else cpol s.cfgMode := by
    simp [State.sckLevel, h.sck]
  rw [afterUop_uToggleSck_sck, hsck]
  cases away <;> simp

theorem PresentsNibble.complete (h : PresentsNibble n away s) : PresentsNibble n away (complete (tick s)) :=
  ⟨h.qdir, h.qout, h.sck⟩

section
variable (hdir : s.qdir = .out) (hsck : s.sck = .driven (cpol s.cfgMode))
include hdir hsck

/-- R132: with the lanes as outputs and the clock at idle, the drive presents the nibble. -/
theorem presentsNibble_of_driveq : PresentsNibble n false (afterUop (.uDriveq n) (tick s)) := ⟨hdir, rfl, hsck⟩

/-- R176: the nibble stands on the lanes from its drive to the end of its last wait, and the clock is away from idle from
the first toggle to the second. -/
theorem presentsNibble_plays_take {j : Nat} (h1 : 1 ≤ j) (h5 : j ≤ 5) :
    PresentsNibble n (decide (j = 2 ∨ j = 3)) (plays ((nibbleOut n).take j) s) := by
  have hdrive : PresentsNibble n false (afterUop (.uDriveq n) (tick s)) := presentsNibble_of_driveq hdir hsck
  interval_cases j
  · exact hdrive
  · exact hdrive.toggle
  · exact hdrive.toggle.wait
  · exact hdrive.toggle.wait.toggle
  · exact hdrive.toggle.wait.toggle.wait

theorem presentsNibble_plays_nibbleOut : PresentsNibble n false (plays (nibbleOut n) s) :=
  presentsNibble_plays_take hdir hsck (j := 5) (by omega) (by omega)

/-- R176: at either edge or inside the pulse, a monitor takes one reading of a nibble, and it is that nibble. -/
theorem playsRecorded_nibbleOut (p : PulsePoint) :
    playsRecorded p.chosen laneHandles (nibbleOut n) s = [nibbleReading n] := by
  have hdrive : PresentsNibble n false (afterUop (.uDriveq n) (tick s)) := presentsNibble_of_driveq hdir hsck
  have hlead := hdrive.toggle
  have hinside := hlead.wait
  have htrail := hinside.toggle
  have hlast := htrail.wait
  cases p
  case leadingEdge =>
    simp [nibbleOut, playsRecorded, PulsePoint.chosen, Event.isToggle, hlead.clockAway_eq, hlead.reading_eq,
      htrail.clockAway_eq]
  case inside =>
    simp [nibbleOut, playsRecorded, PulsePoint.chosen, Event.isWait, hinside.clockAway_eq, hinside.reading_eq,
      hlast.clockAway_eq]
  case trailingEdge =>
    simp [nibbleOut, playsRecorded, PulsePoint.chosen, Event.isToggle, hlead.clockAway_eq, htrail.reading_eq,
      htrail.clockAway_eq]

end

end

theorem laneBit_upperNibble (v : Byte) (lane : Fin 4) :
    laneBit (upperNibble v) lane = v.extractLsb' (4 + lane.val) 1 := by
  have hlane := lane.isLt
  apply BitVec.eq_of_getLsbD_eq
  intro i hi
  have hin : lane.val + i < 4 := by omega
  simp [laneBit, upperNibble, hi, hin, Nat.add_assoc]

theorem laneBit_lowerNibble (v : Byte) (lane : Fin 4) : laneBit (lowerNibble v) lane = v.extractLsb' lane.val 1 :=
  BitVec.extractLsb'_extractLsb'_of_le lane.isLt

/-- R171: with the upper nibble, lane `L` carries bit `4 + L` of the byte. -/
theorem nibbleReading_upperNibble (v : Byte) : nibbleReading (upperNibble v) =
    [.driven (v.extractLsb' 4 1), .driven (v.extractLsb' 5 1), .driven (v.extractLsb' 6 1),
     .driven (v.extractLsb' 7 1)] := by
  simp [nibbleReading, laneBit_upperNibble]

/-- R171: with the lower nibble, lane `L` carries bit `L` of the byte. -/
theorem nibbleReading_lowerNibble (v : Byte) : nibbleReading (lowerNibble v) =
    [.driven (v.extractLsb' 0 1), .driven (v.extractLsb' 1 1), .driven (v.extractLsb' 2 1),
     .driven (v.extractLsb' 3 1)] := by
  simp [nibbleReading, laneBit_lowerNibble]

/-! ### A whole quad write -/

/-- R95: the word of a `QWR` decodes to it. -/
theorem decode_commandWord_qwr (v : Byte) : decode (.cmd (commandWord (.qwr v))) = .ok (.qwr v) := by
  simp only [decode, commandWord, encode, decodeCmd, opcodeField, extract_opcode_of_byte_fields,
    argField_extract_high24, extract_reserved_of_byte_fields, argField_extract_byte, extract_low_of_byte_fields]
  rfl

/-- R121, R170: what the accept step of a presented `QWR v` makes of the engine. -/
def acceptedQwr (v : Byte) (s : State) : State :=
  beginCommand .qwr (commandWord (.qwr v)) { popHost (tick s) with tx := v }

/-- R175: the state before the upper nibble of a `QWR`, its lanes turned to outputs. -/
def beforeUpperNibble (v : Byte) (s : State) : State := afterUop (.uQdir .out) (tick (acceptedQwr v s))

/-- The state between the two nibbles of a `QWR`. -/
def beforeLowerNibble (v : Byte) (s : State) : State := plays (nibbleOut (upperNibble v)) (beforeUpperNibble v s)

/-- What a whole `QWR v` makes of the engine. -/
def afterQwr (v : Byte) (s : State) : State :=
  complete (tick (plays (nibbleOut (lowerNibble v)) (beforeLowerNibble v s)))

section
variable {s : State} {v : Byte} {rest : List CmdWord}

theorem uprog_acceptedQwr : (acceptedQwr v s).uprog =
    .uQdir .out :: (nibbleOut (upperNibble v) ++ nibbleOut (lowerNibble v)) := rfl

theorem plays_uprog_acceptedQwr : plays (acceptedQwr v s).uprog (acceptedQwr v s) =
    plays (nibbleOut (lowerNibble v)) (beforeLowerNibble v s) := by
  rw [uprog_acceptedQwr, plays_cons, plays_append, beforeLowerNibble, beforeUpperNibble]

theorem beforeUpperNibble_qdir : (beforeUpperNibble v s).qdir = .out := by simp [beforeUpperNibble]

section
variable (hsck : s.sck = .driven (cpol s.cfgMode))
include hsck

theorem beforeUpperNibble_sck : (beforeUpperNibble v s).sck = .driven (cpol (beforeUpperNibble v s).cfgMode) := by
  simp [beforeUpperNibble, acceptedQwr, hsck]

/-- R176: between the two nibbles the upper one still stands on the lanes, with the clock at idle. -/
theorem beforeLowerNibble_presents : PresentsNibble (upperNibble v) false (beforeLowerNibble v s) :=
  presentsNibble_plays_nibbleOut beforeUpperNibble_qdir (beforeUpperNibble_sck hsck)

/-- R176: the completion step leaves the lower nibble on the lanes and the clock at idle. -/
theorem afterQwr_presents : PresentsNibble (lowerNibble v) false (afterQwr v s) :=
  have hbetween := beforeLowerNibble_presents (v := v) hsck
  (presentsNibble_plays_nibbleOut hbetween.qdir hbetween.sck_at_idle).complete

end

section
variable (hs : s.seqState = .idle) (hr : s.noReset) (hc : s.configured = true)
  (hh : s.host = commandWord (.qwr v) :: rest)
include hs hr hc hh

theorem step_of_presented_qwr : step s = .next (acceptedQwr v s) := by
  have hidle : (popHost (tick s)).seqState = .idle := hs
  have hconf : (popHost (tick s)).configured = true := hc
  rw [step_of_presented hs hr hh (decode_commandWord_qwr v), exec, execQwr, whenIdle_of_idle hidle,
    whenConfigured_of_configured hconf]
  rfl

/-- R121, R123, R136: a presented `QWR` completes in thirteen steps: accept, eleven micro-ops, done. -/
theorem run_qwr : Host.Core.run core 13 s = .next (afterQwr v s) := by
  rw [afterQwr, ← plays_uprog_acceptedQwr]
  exact run_accepted (step_of_presented_qwr hs hr hc hh) rfl rfl (noReset_of_tail hr rfl)

/-- R176: the lanes present the upper nibble from its drive, before edge 1, until after the wait of edge 2. -/
theorem run_qwr_presents_upper (hsck : s.sck = .driven (cpol s.cfgMode)) {j : Nat} (h1 : 1 ≤ j) (h5 : j ≤ 5) :
    ∃ t, Host.Core.run core (j + 2) s = .next t ∧ PresentsNibble (upperNibble v) (decide (j = 2 ∨ j = 3)) t := by
  have hprog : (acceptedQwr v s).uprog = (.uQdir .out :: (nibbleOut (upperNibble v)).take j) ++
      ((nibbleOut (upperNibble v)).drop j ++ nibbleOut (lowerNibble v)) := by
    rw [uprog_acceptedQwr, List.cons_append, ← List.append_assoc, List.take_append_drop]
  have hrun := run_accepted_plays (step_of_presented_qwr hs hr hc hh) rfl rfl (noReset_of_tail hr rfl) hprog
  have hlen : ((nibbleOut (upperNibble v)).take j).length = j := by simp [nibbleOut, h5]
  rw [List.length_cons, hlen, plays_cons, ← beforeUpperNibble] at hrun
  exact ⟨_, hrun, presentsNibble_plays_take beforeUpperNibble_qdir (beforeUpperNibble_sck hsck) h1 h5⟩

/-- R176: the lanes present the lower nibble from its drive, before edge 3, until after the wait of edge 4. -/
theorem run_qwr_presents_lower (hsck : s.sck = .driven (cpol s.cfgMode)) {j : Nat} (h1 : 1 ≤ j) (h5 : j ≤ 5) :
    ∃ t, Host.Core.run core (j + 7) s = .next t ∧ PresentsNibble (lowerNibble v) (decide (j = 2 ∨ j = 3)) t := by
  have hprog : (acceptedQwr v s).uprog =
      (.uQdir .out :: (nibbleOut (upperNibble v) ++ (nibbleOut (lowerNibble v)).take j)) ++
        (nibbleOut (lowerNibble v)).drop j := by
    rw [uprog_acceptedQwr, List.cons_append, List.append_assoc, List.take_append_drop]
  have hrun := run_accepted_plays (step_of_presented_qwr hs hr hc hh) rfl rfl (noReset_of_tail hr rfl) hprog
  have hlen : (nibbleOut (upperNibble v) ++ (nibbleOut (lowerNibble v)).take j).length = j + 5 := by
    simp [nibbleOut, h5]
  have hbetween := beforeLowerNibble_presents (v := v) hsck
  rw [List.length_cons, hlen, plays_cons, plays_append, ← beforeUpperNibble, ← beforeLowerNibble] at hrun
  exact ⟨_, hrun, presentsNibble_plays_take hbetween.qdir hbetween.sck_at_idle h1 h5⟩

/-- R176: over a whole `QWR` a quad monitor takes two readings, the upper nibble and the lower. -/
theorem quadMonitor_qwr (hsck : s.sck = .driven (cpol s.cfgMode)) (p : PulsePoint) :
    quadMonitor p 13 s = [nibbleReading (upperNibble v), nibbleReading (lowerNibble v)] := by
  have hrec : quadMonitor p 13 s = playsRecorded p.chosen laneHandles (acceptedQwr v s).uprog (acceptedQwr v s) :=
    recorded_accepted _ _ (step_of_presented_qwr hs hr hc hh) rfl rfl (noReset_of_tail hr rfl) rfl
      (fun _ => by cases p <;> rfl) (fun _ _ => by cases p <;> rfl)
  have hturn : ∀ t, p.chosen (.uop (.uQdir .out) .nothing) t = false := fun _ => by cases p <;> rfl
  have hbetween := beforeLowerNibble_presents (v := v) hsck
  rw [hrec, uprog_acceptedQwr, playsRecorded, ← beforeUpperNibble, playsRecorded_append, ← beforeLowerNibble,
    playsRecorded_nibbleOut beforeUpperNibble_qdir (beforeUpperNibble_sck hsck),
    playsRecorded_nibbleOut hbetween.qdir hbetween.sck_at_idle]
  simp [uopSample, hturn]

end

end

/-- Settles O55: the steps from 3 to 7 present the upper nibble, those from 8 on the lower one, each with the clock away
from idle between its two edges; and a monitor takes one reading of each. -/
theorem quadWriteSeenByAMonitor : Obligations.QuadWriteSeenByAMonitor := by
  intro s v rest hinv hs hr hc hh
  have hsck : s.sck = .driven (cpol s.cfgMode) := sck_of_idle_configured hinv hs hc
  refine ⟨fun k h3 h13 => ?steps, fun _ p => ?readings⟩
  case steps =>
    obtain hk | ⟨h8, h12⟩ | rfl : k ≤ 7 ∨ (8 ≤ k ∧ k ≤ 12) ∨ k = 13 := by omega
    · obtain ⟨j, rfl⟩ : ∃ j, k = j + 2 := ⟨k - 2, by omega⟩
      obtain ⟨t, hrun, h⟩ := run_qwr_presents_upper hs hr hc hh hsck (j := j) (by omega) (by omega)
      refine ⟨t, hrun, h.qdir, ?_, fun _ => ?_⟩
      · rw [if_pos hk]; exact h.qout
      · have hfirst : ¬(j + 2 = 9 ∨ j + 2 = 10) := by omega
        rw [if_neg hfirst, h.monitor_eq]
        simp [upperNibble]
    · obtain ⟨j, rfl⟩ : ∃ j, k = j + 7 := ⟨k - 7, by omega⟩
      obtain ⟨t, hrun, h⟩ := run_qwr_presents_lower hs hr hc hh hsck (j := j) (by omega) (by omega)
      refine ⟨t, hrun, h.qdir, ?_, fun _ => ?_⟩
      · rw [if_neg (by omega)]; exact h.qout
      · have hsecond : ¬(j + 7 = 4 ∨ j + 7 = 5) := by omega
        rw [if_neg hsecond, h.monitor_eq]
        simp [lowerNibble]
    · have h : PresentsNibble (lowerNibble v) false (afterQwr v s) := afterQwr_presents hsck
      exact ⟨_, run_qwr hs hr hc hh, h.qdir, h.qout, fun _ => h.monitor_eq⟩
  case readings =>
    rw [quadMonitor_qwr hs hr hc hh hsck, nibbleReading_upperNibble, nibbleReading_lowerNibble]

end Sys2Proof.Machine
end

section
/-! PROOFS. 43_quad.md R173, R177: a whole `QRD` against its two lane samples. -/

namespace Sys2Proof.Machine

/-! ### A nibble from the lanes -/

/-- R173: the micro-ops that receive one nibble. -/
def nibbleIn (h : Half) : List Instr := [.uToggleSck, .uSampleq h, .uWait, .uToggleSck, .uWait]

/-- R173: the lanes are sampled right after the leading edge, so what the environment answers to the one sample of a
nibble is what it answers in this state, where `s` is the state before the nibble. -/
def atLaneSample (s : State) : State := afterUop .uToggleSck (tick s)

/-- R174: the events of a nibble received, oldest first, when its sample is `n`. -/
def nibbleEvents (h : Half) (n : Nibble) : List Event :=
  [.uop .uToggleSck .nothing, .uop (.uSampleq h) (.nibble n), .uop .uWait .nothing, .uop .uToggleSck .nothing,
   .uop .uWait .nothing]

/-- What the environment answers on the lanes does not depend on the `rst` line (R66). -/
@[simp] theorem pinReadQ_tick (s : State) : pinReadQ (tick s) = pinReadQ s := rfl

section
variable (h : Half) (s : State)

theorem plays_nibbleIn_rx :
    (plays (nibbleIn h) s).rx = s.rx ||| placeNibble (pinReadQ (atLaneSample s)).1 h := by
  simp [plays, nibbleIn, atLaneSample]

theorem plays_nibbleIn_env : (plays (nibbleIn h) s).env = (pinReadQ (atLaneSample s)).2 := by
  simp [plays, nibbleIn, atLaneSample]

theorem plays_nibbleIn_trace :
    (plays (nibbleIn h) s).trace = (nibbleEvents h (pinReadQ (atLaneSample s)).1).reverse ++ s.trace := by
  simp [plays, nibbleIn, nibbleEvents, atLaneSample, uopSample]

theorem plays_nibbleIn_qdir : (plays (nibbleIn h) s).qdir = s.qdir := by simp [plays, nibbleIn]

theorem plays_nibbleIn_qout : (plays (nibbleIn h) s).qout = s.qout := by simp [plays, nibbleIn]

theorem plays_nibbleIn_mosi : (plays (nibbleIn h) s).mosi = s.mosi := by simp [plays, nibbleIn]

/-- R173: two edges leave the clock where it was. -/
theorem plays_nibbleIn_sck {c : Bit} (hsck : s.sck = .driven c) : (plays (nibbleIn h) s).sck = .driven c := by
  simp [plays, nibbleIn, State.sckLevel, hsck]

/-- R66: a scripted environment answers the sample of a nibble with the next nibble of its script. -/
theorem pinReadQ_atLaneSample_scripted {n : Nibble} {bs : List Bit} {ns : List Nibble}
    (he : s.env = .scripted bs (n :: ns)) : pinReadQ (atLaneSample s) = (n, .scripted bs ns) :=
  pinReadQ_scripted (by simp [atLaneSample, he])

end

/-! ### A whole quad read -/

/-- R96: the word of a `QRD` decodes to it. -/
theorem decode_commandWord_qrd : decode (.cmd (commandWord .qrd)) = .ok .qrd := by decide

/-- R121, R173: what the accept step of a presented `QRD` makes of the engine. -/
def acceptedQrd (s : State) : State := beginCommand .qrd (commandWord .qrd) { popHost (tick s) with rx := 0 }

/-- R175: the state before the first nibble of a `QRD`, its lanes turned to inputs. -/
def beforeFirstNibble (s : State) : State := afterUop (.uQdir .inp) (tick (acceptedQrd s))

/-- The state between the two nibbles of a `QRD`. -/
def beforeSecondNibble (s : State) : State := plays (nibbleIn .high) (beforeFirstNibble s)

/-- The first lane sample of a `QRD`, and the environment after it. -/
def firstSample (s : State) : Nibble × Env := pinReadQ (atLaneSample (beforeFirstNibble s))

/-- The second lane sample of a `QRD`, and the environment after it. -/
def secondSample (s : State) : Nibble × Env := pinReadQ (atLaneSample (beforeSecondNibble s))

/-- What a whole `QRD` makes of the engine. -/
def afterQrd (s : State) : State := complete (tick (plays (nibbleIn .low) (beforeSecondNibble s)))

section
variable {s : State} {rest : List CmdWord}

theorem uprog_acceptedQrd : (acceptedQrd s).uprog = .uQdir .inp :: (nibbleIn .high ++ nibbleIn .low) := rfl

theorem plays_uprog_acceptedQrd :
    plays (acceptedQrd s).uprog (acceptedQrd s) = plays (nibbleIn .low) (beforeSecondNibble s) := by
  rw [uprog_acceptedQrd, plays_cons, plays_append, beforeSecondNibble, beforeFirstNibble]

theorem beforeFirstNibble_trace :
    (beforeFirstNibble s).trace = .uop (.uQdir .inp) .nothing :: .accept (commandWord .qrd) :: s.trace := by
  simp [beforeFirstNibble, acceptedQrd, uopSample]

/-- R173: the first sample is the high nibble of `RX`, the second the low one. -/
theorem afterQrd_rx : (afterQrd s).rx = (firstSample s).1.setWidth 8 <<< 4 ||| (secondSample s).1.setWidth 8 := by
  simp [afterQrd, plays_nibbleIn_rx, beforeSecondNibble, beforeFirstNibble, acceptedQrd, firstSample, secondSample,
    placeNibble]

/-- R134, R174: the events of a `QRD` are those of its two nibbles, after `Accept` and the turn of the lanes. -/
theorem afterQrd_trace : (afterQrd s).trace = .done (some (afterQrd s).rx) ::
    ((nibbleEvents .low (secondSample s).1).reverse ++ ((nibbleEvents .high (firstSample s).1).reverse ++
      .uop (.uQdir .inp) .nothing :: .accept (commandWord .qrd) :: s.trace)) := by
  have hop : (plays (nibbleIn .low) (beforeSecondNibble s)).seqOp = .qrd := by
    rw [← plays_uprog_acceptedQrd, plays_seqOp, acceptedQrd, beginCommand_seqOp]
  rw [← beforeFirstNibble_trace, firstSample, secondSample, ← plays_nibbleIn_trace, ← beforeSecondNibble,
    ← plays_nibbleIn_trace, afterQrd, complete_trace, tick_seqOp, hop]
  rfl

/-- R66: a scripted environment fixes both samples, and is left with the rest of its script. -/
theorem samples_scripted {bs : List Bit} {x y : Nibble} {ns : List Nibble} (he : s.env = .scripted bs (x :: y :: ns)) :
    (firstSample s).1 = x ∧ (secondSample s).1 = y ∧ (afterQrd s).env = .scripted bs ns := by
  have hfirst : firstSample s = (x, .scripted bs (y :: ns)) :=
    pinReadQ_atLaneSample_scripted (beforeFirstNibble s) (by simp [beforeFirstNibble, acceptedQrd, he])
  have hbetween : (beforeSecondNibble s).env = .scripted bs (y :: ns) := by
    rw [beforeSecondNibble, plays_nibbleIn_env, ← firstSample, hfirst]
  have hsecond : secondSample s = (y, .scripted bs ns) := pinReadQ_atLaneSample_scripted _ hbetween
  have hend : (afterQrd s).env = .scripted bs ns := by
    rw [afterQrd, complete_env, tick_env, plays_nibbleIn_env, ← secondSample, hsecond]
  exact ⟨by rw [hfirst], by rw [hsecond], hend⟩

/-- R173: a `QRD` leaves the clock where it was. -/
theorem afterQrd_sck {c : Bit} (h : s.sck = .driven c) : (afterQrd s).sck = .driven c := by
  have hfirst : (beforeFirstNibble s).sck = .driven c := by simp [beforeFirstNibble, acceptedQrd, h]
  rw [afterQrd, complete_sck, tick_sck, plays_nibbleIn_sck]
  exact plays_nibbleIn_sck .high _ hfirst

/-- R173, R175: a `QRD` leaves the lanes as inputs. -/
theorem afterQrd_qdir : (afterQrd s).qdir = .inp := by
  simp [afterQrd, beforeSecondNibble, beforeFirstNibble, plays_nibbleIn_qdir]

/-- R173: what a `QRD` does not write. -/
theorem afterQrd_frame :
    (afterQrd s).qout = s.qout ∧ (afterQrd s).tx = s.tx ∧ (afterQrd s).mosi = s.mosi ∧
    (afterQrd s).cfgMode = s.cfgMode ∧ (afterQrd s).cfgHz = s.cfgHz ∧ (afterQrd s).fmtValid = s.fmtValid ∧
    (afterQrd s).freqValid = s.freqValid ∧ (afterQrd s).faultCode = s.faultCode := by
  simp [afterQrd, beforeSecondNibble, beforeFirstNibble, acceptedQrd, plays_nibbleIn_qout, plays_nibbleIn_mosi,
    plays_tx, plays_cfgMode, plays_cfgHz, plays_fmtValid, plays_freqValid, plays_faultCode]

section
variable (hs : s.seqState = .idle) (hr : s.noReset) (hc : s.configured = true) (hh : s.host = commandWord .qrd :: rest)
include hs hr hc hh

theorem step_of_presented_qrd : step s = .next (acceptedQrd s) := by
  have hidle : (popHost (tick s)).seqState = .idle := hs
  have hconf : (popHost (tick s)).configured = true := hc
  rw [step_of_presented hs hr hh decode_commandWord_qrd, exec, execQrd, whenIdle_of_idle hidle,
    whenConfigured_of_configured hconf]
  rfl

/-- R121, R123, R136: a presented `QRD` completes in thirteen steps: accept, eleven micro-ops, done. -/
theorem run_qrd : Host.Core.run core 13 s = .next (afterQrd s) := by
  rw [afterQrd, ← plays_uprog_acceptedQrd]
  exact run_accepted (step_of_presented_qrd hs hr hc hh) rfl rfl (noReset_of_tail hr rfl)

end

end

/-- Settles O57, with the two samples that the environment answers: `RX` and the trace are put together nibble by nibble,
a nibble writes no other register, and its two edges leave the clock where a sound idle engine has it. -/
theorem quadReadAgainstAFixture : Obligations.QuadReadAgainstAFixture := by
  intro s rest hinv hs hr hc hh
  have hsck : s.sck = .driven (cpol s.cfgMode) := sck_of_idle_configured hinv hs hc
  obtain ⟨hqout, htx, hmosi, hmode, hhz, hfmt, hfreq, hfault⟩ := afterQrd_frame (s := s)
  refine ⟨afterQrd s, (firstSample s).1, (secondSample s).1, run_qrd hs hr hc hh, ?trace,
    fun bs x y ns he => samples_scripted he, afterQrd_qdir, hqout, htx, hmosi, ?clock, hmode, hhz, hfmt, hfreq, hfault⟩
  case trace => rw [afterQrd_trace, afterQrd_rx]; rfl
  case clock => rw [afterQrd_sck hsck, hsck]

end Sys2Proof.Machine
end

section
/-! PROOFS. 60_exceptions.md R203 to R205, R209: the faults of the accept step, and the fault record until reset. -/

namespace Sys2Proof.Machine

section
variable {s : State}

/-- R120, R137: a faulted engine with `rst` low takes no step; only the input lines move on. -/
theorem step_of_faulted (hr : s.rstNow = false) (hs : s.seqState = .faulted) : step s = .next (tick s) := by
  simp only [step, enabled_faulted hr hs]

section
variable (hs : s.seqState = .idle)
include hs

/-- R203: `CFGFMT` of a width other than 8 is answered with the fault alone. -/
theorem exec_cfgfmt_of_other_width {bits : Byte} (hb : bits ≠ 8) (mode : BitVec 2) :
    exec (.cfgfmt bits mode) s =
      .next (raiseFault .widthUnsupported (commandWord (.cfgfmt bits mode)) s) := by
  rw [exec, execCfgfmt, whenIdle_of_idle hs]
  exact if_neg hb

/-- R204: `CFGFREQ 0` is answered with the fault alone. -/
theorem exec_cfgfreq_zero :
    exec (.cfgfreq 0) s = .next (raiseFault .freqZero (commandWord (.cfgfreq 0)) s) := by
  rw [exec, execCfgfreq, whenIdle_of_idle hs]
  exact if_pos rfl

/-- R205: without its configuration the accept step of a transfer, whatever it would do, is the fault alone. -/
theorem whenIdle_whenConfigured_of_not (hc : s.configured = false) (cmd : CmdWord)
    (f : State → Host.Outcome State Fault Refusal) :
    (whenIdle s fun s => whenConfigured cmd s f) = .next (raiseFault .notConfigured cmd s) := by
  rw [whenIdle_of_idle hs, whenConfigured_of_not hc]

end

/-- R205: one missing configuration command leaves the engine unconfigured. -/
theorem configured_eq_false_iff : s.configured = false ↔ s.fmtValid = false ∨ s.freqValid = false :=
  Bool.and_eq_false_iff

end

/-- Settles O38: a recorded fault puts a sound engine in `FAULTED`, where a step with `rst` low touches no register and
one with `rst` high is the reset. -/
theorem faultRecordIsSticky : Obligations.FaultRecordIsSticky := by
  intro s t hinv hfault hstep
  have hs : s.seqState = .faulted := hinv.faulted_iff.mpr hfault
  split
  · next hr =>
    obtain rfl : tick (takeReset s) = t := Host.Outcome.next.inj ((step_of_rst hr).symm.trans hstep)
    exact ⟨rfl, rfl⟩
  · next hr =>
    obtain rfl : tick s = t :=
      Host.Outcome.next.inj ((step_of_faulted (Bool.eq_false_of_not_eq_true hr) hs).symm.trans hstep)
    exact ⟨hs, rfl, rfl⟩

/-- Settles O12: `raiseFault` writes just the fields the statement names. -/
theorem cfgfmtOtherWidthFaults : Obligations.CfgfmtOtherWidthFaults :=
  ⟨rfl, fun _ _ mode hs hb => exec_cfgfmt_of_other_width hs hb mode⟩

/-- Settles O14: `raiseFault` writes just the fields the statement names. -/
theorem cfgfreqZeroFaults : Obligations.CfgfreqZeroFaults :=
  ⟨rfl, fun _ hs => exec_cfgfreq_zero hs⟩

/-- Settles O18: the three transfers pass the same two gates before they do anything of their own. -/
theorem unconfiguredTransferFaults : Obligations.UnconfiguredTransferFaults := by
  refine ⟨rfl, fun s v hs hmissing => ?_⟩
  have hc : s.configured = false := configured_eq_false_iff.mpr hmissing
  simp only [List.forall_mem_cons]
  refine ⟨?xfer, ?qwr, ?qrd, List.forall_mem_nil _⟩
  case xfer => exact whenIdle_whenConfigured_of_not hs hc _ _
  case qwr => exact whenIdle_whenConfigured_of_not hs hc _ _
  case qrd => exact whenIdle_whenConfigured_of_not hs hc _ _

end Sys2Proof.Machine
end

section
/-! PROOFS. 70_reset_and_hazards.md R253: the nominal durations. -/

namespace Sys2Proof.Machine

/-- R253: the column "waits". -/
def Op.waits : Op → Nat
  | .cfgfmt | .cfgfreq => 0
  | .xfer => 16
  | .qwr | .qrd => 4

/-- R136: the waits of R253 are those that stand in the micro-programs. -/
theorem countIn_uWait (op : Op) (mode : BitVec 2) (tx : Byte) : countIn .uWait op mode tx = op.waits := by
  obtain ⟨_, _, hwaits, _⟩ := microProgramCounts mode tx op
  cases op <;> exact hwaits

/-- R152, R253: two waits make one full period. -/
theorem nominalDuration_eq (op : Op) (mode : BitVec 2) (tx : Byte) (hz : BitVec 32) :
    nominalDuration op mode tx hz = (op.waits / 2 : ℚ) / (hz.toNat : ℚ) := by
  rw [nominalDuration, countIn_uWait, halfPeriod]
  ring

/-- Settles O34: a command takes one period for every two of the waits that R136 counts; the example is the `XFER` row
at its frequency. The premise on `hz` is not needed: over ℚ a division by 0 is 0 on both sides. -/
theorem nominalDurations : Obligations.NominalDurations := by
  intro mode tx hz _
  have hxfer : ∀ f : BitVec 32, nominalDuration .xfer mode tx f = 8 / (f.toNat : ℚ) := fun f => by
    rw [nominalDuration_eq]
    norm_num [Op.waits]
  refine ⟨hxfer hz, ?qwr, ?qrd, ?cfgfmt, ?cfgfreq,
    countIn_uWait _ _ _, countIn_uWait _ _ _, countIn_uWait _ _ _, countIn_uWait _ _ _, countIn_uWait _ _ _,
    hxfer 1000000⟩
  all_goals
    rw [nominalDuration_eq]
    norm_num [Op.waits]

end Sys2Proof.Machine
end

section
/-! PROOFS. 30_encoding.md R91 to R99, R103: encoding and decoding undo each other, and which words are commands. -/

namespace Sys2Proof.Machine

/-! ### The reserved field -/

/-- R98: the gate of the reserved field lets an instruction through exactly when the field is 0. -/
theorem whenReservedZero_eq_ok_iff {r : Bool} {opc : Byte} {i j : Instr} :
    whenReservedZero r opc i = .ok j ↔ r = true ∧ i = j := by
  cases r <;> simp [whenReservedZero]

/-! ### Decoding what was encoded -/

/-- R92: the word of a `CFGFMT` of any width decodes to it. -/
theorem decode_encode_cfgfmt (bits : Byte) (mode : BitVec 2) :
    decode (encode (.cfgfmt bits mode)) = .ok (.cfgfmt bits mode) := by
  simp only [decode, encode, decodeCmd, opcodeField, extract_opcode_of_fields, argField_extract_high22,
    extract_reserved_of_fields, argField_extract_mode, extract_mode_of_fields, argField_extract_byte,
    extract_low_of_fields]
  rfl

/-- R93: the word of a `CFGFREQ` decodes to it. -/
theorem decode_encode_cfgfreq (hz : BitVec 32) : decode (encode (.cfgfreq hz)) = .ok (.cfgfreq hz) := by
  simp only [decode, encode, decodeCmd, opcodeField, argField, extract_opcode_of_opcode_arg,
    extract_arg_of_opcode_arg]
  rfl

/-- Settles O1, instruction by instruction: the fields of a command word are found where the encoder put them, and the
micro-ops have few enough operands to go through their codes. -/
theorem decodeUndoesEncode : Obligations.DecodeUndoesEncode := by
  intro i
  cases i with
  | cfgfmt bits mode => exact decode_encode_cfgfmt bits mode
  | cfgfreq hz => exact decode_encode_cfgfreq hz
  | xfer v => exact decode_commandWord_xfer v
  | qwr v => exact decode_commandWord_qwr v
  | qrd => exact decode_commandWord_qrd
  | uWait => rfl
  | uDriveMosi b => revert b; decide
  | uSampleMiso i => revert i; decide
  | uToggleSck => rfl
  | uSetSck b => revert b; decide
  | uQdir d => cases d <;> rfl
  | uDriveq n => revert n; decide
  | uSampleq h => cases h <;> rfl

/-! ### Encoding what was decoded -/

/-- R92 to R98: the command that a word decodes to has that word: it is put together again from its opcode, its reserved
bits, which are 0, and its operands. -/
theorem encode_of_decodeCmd {w : CmdWord} {i : Instr} (h : decodeCmd w = .ok i) : encode i = .cmd w := by
  simp only [decodeCmd, argField_extract_high22, argField_extract_high24, argField_extract_byte,
    argField_extract_mode] at h
  split_ifs at h with h10 h11 h20 h21 h22
  · obtain ⟨hres, rfl⟩ := whenReservedZero_eq_ok_iff.mp h
    rw [encode, ← h10, ← beq_iff_eq.mp hres, opcodeField, cmdWord_eq_fields]
  · obtain rfl := Except.ok.inj h
    rw [encode, ← h11, cmdWord_eq_opcode_arg]
  · obtain ⟨hres, rfl⟩ := whenReservedZero_eq_ok_iff.mp h
    rw [encode, ← h20, ← beq_iff_eq.mp hres, opcodeField, cmdWord_eq_byte_fields]
  · obtain ⟨hres, rfl⟩ := whenReservedZero_eq_ok_iff.mp h
    rw [encode, ← h21, ← beq_iff_eq.mp hres, opcodeField, cmdWord_eq_byte_fields]
  · obtain ⟨hres, rfl⟩ := whenReservedZero_eq_ok_iff.mp h
    rw [encode, ← h22, ← beq_iff_eq.mp hres, cmdWord_eq_opcode_arg]

/-- Settles O2: for a command word and for a micro-op code, the two halves of the encoding tables. -/
theorem encodeUndoesDecode : Obligations.EncodeUndoesDecode := by
  intro c i h
  cases c with
  | cmd w => exact encode_of_decodeCmd h
  | uop u => exact encode_of_decodeUop h

/-! ### The words that are commands -/

/-- R92 to R96: the word of a command has an assigned opcode and its reserved bits 0. -/
theorem isCommandWord_of_encode {w : CmdWord} {i : Instr} (h : encode i = .cmd w) : isCommandWord w := by
  cases i with
  | cfgfmt bits mode =>
    obtain rfl := Code.cmd.inj h
    exact .inl ⟨extract_opcode_of_fields _ _ _ _, extract_reserved_of_fields _ _ _ _⟩
  | cfgfreq hz =>
    obtain rfl := Code.cmd.inj h
    exact .inr (.inl (extract_opcode_of_opcode_arg _ _))
  | xfer v =>
    obtain rfl := Code.cmd.inj h
    exact .inr (.inr (.inl ⟨extract_opcode_of_byte_fields _ _ _, extract_reserved_of_byte_fields _ _ _⟩))
  | qwr v =>
    obtain rfl := Code.cmd.inj h
    exact .inr (.inr (.inr (.inl ⟨extract_opcode_of_byte_fields _ _ _, extract_reserved_of_byte_fields _ _ _⟩)))
  | qrd =>
    obtain rfl := Code.cmd.inj h
    exact .inr (.inr (.inr (.inr ⟨extract_opcode_of_opcode_arg _ _, extract_arg_of_opcode_arg _ _⟩)))
  | _ => cases h

/-- R106: a word with an assigned opcode and its reserved bits 0 decodes. -/
theorem exists_decode_of_isCommandWord {w : CmdWord} (h : isCommandWord w) : ∃ i, decode (.cmd w) = .ok i := by
  simp only [decode, decodeCmd, opcodeField, argField_extract_high22, argField_extract_high24]
  obtain ⟨ho, hres⟩ | ho | ⟨ho, hres⟩ | ⟨ho, hres⟩ | ⟨ho, hres⟩ := h
  · simp [ho, hres, whenReservedZero]
  · simp [ho]
  · simp [ho, hres, whenReservedZero]
  · simp [ho, hres, whenReservedZero]
  · simp [ho, argField, hres, whenReservedZero]

/-- Settles O3: a word that decodes is the word of a command, which has the bits of its row; and the decoder refuses no
word that has them. -/
theorem commandWordsAreExactlyTheAssignedOnes : Obligations.CommandWordsAreExactlyTheAssignedOnes :=
  fun _ => ⟨fun ⟨_, h⟩ => isCommandWord_of_encode (encode_of_decodeCmd h), exists_decode_of_isCommandWord⟩

/-- Settles O4: thirteen closed words, each evaluated. -/
theorem specVectorWordsDecode : Obligations.SpecVectorWordsDecode := by
  unfold Obligations.SpecVectorWordsDecode
  decide

end Sys2Proof.Machine
end

section
/-! PROOFS. The invariant: it holds after reset, and every step keeps it, one lemma for each kind of step. -/

namespace Sys2Proof.Machine

/-! ### Reset, and the input lines -/

/-- R44: the reset values are sound, whatever stands outside the engine. -/
theorem inv_of_reset_values (pins : Pins) (host : List CmdWord) (line : List Bool) (env : Env) (past : History)
    (held : Bool) :
    Inv { State.reset with
      pins := pins, host := host, rstLine := line, env := env, past := past, rstHeld := held } := by
  constructor <;> simp [State.reset, Latch.unwritten]

/-- Settles O47: `State.reset` is one of the states with the reset values. -/
theorem soundAtReset : Obligations.SoundAtReset :=
  inv_of_reset_values .separate [] [] .oracle [] true

theorem inv_tick_takeReset (s : State) : Inv (tick (takeReset s)) :=
  inv_of_reset_values s.pins s.host s.rstLine.tail s.env _ s.rstNow

section
variable {s : State} (hinv : Inv s)
include hinv

/-- The relations of `Inv` other than `held` do not speak of the input lines, and with `rst` low no reset is
held. -/
theorem inv_tick_of_low (hr : s.rstNow = false) : Inv (tick s) where
  faulted_iff := hinv.faulted_iff
  hz_pos := hinv.hz_pos
  idx_le := hinv.idx_le
  configured := hinv.configured
  clock_rest := hinv.clock_rest
  clock_run := hinv.clock_run
  clock_set := hinv.clock_set
  lanes_out := hinv.lanes_out
  lanes_in := hinv.lanes_in
  mosi_driven := hinv.mosi_driven
  rx_clear := hinv.rx_clear
  held := by simp [hr]

theorem inv_popHost : Inv (popHost s) where
  faulted_iff := hinv.faulted_iff
  hz_pos := hinv.hz_pos
  idx_le := hinv.idx_le
  configured := hinv.configured
  clock_rest := hinv.clock_rest
  clock_run := hinv.clock_run
  clock_set := hinv.clock_set
  lanes_out := hinv.lanes_out
  lanes_in := hinv.lanes_in
  mosi_driven := hinv.mosi_driven
  rx_clear := hinv.rx_clear
  held := hinv.held

/-- R208, R209: an engine that is not in `FAULTED` has no fault recorded. -/
theorem faultCode_of_not_faulted (hs : s.seqState ≠ .faulted) : s.faultCode = .noFault :=
  Decidable.not_not.mp fun hf => hs (hinv.faulted_iff.mpr hf)

/-! ### The accept step -/

/-- R208: a fault in `IDLE` keeps the invariant: it touches neither the clock nor the configuration. -/
theorem inv_raiseFault (hs : s.seqState = .idle) (hheld : s.rstHeld = false) {code : FaultCode}
    (hcode : code ≠ .noFault) (cmd : CmdWord) : Inv (raiseFault code cmd s) where
  faulted_iff := by simp [hcode]
  hz_pos := hinv.hz_pos
  idx_le := by simp
  configured := by simp
  clock_rest := fun _ => hinv.clock_rest (by simp [hs])
  clock_run := by simp
  clock_set := by simp
  lanes_out := by simp
  lanes_in := by simp
  mosi_driven := by simp
  rx_clear := by simp
  held := by simp [hheld]

end

/-- R121: what a command must find when it begins. At index 0 nothing has been toggled or sampled, so the clock must be
at idle, unless the command is about to set it, and `RX` clear if a byte is to be received. -/
theorem inv_beginCommand {s : State} {op : Op} (cmd : CmdWord) (hfault : s.faultCode = .noFault)
    (hheld : s.rstHeld = false) (hhz : s.freqValid = true → s.cfgHz ≠ 0)
    (hconf : op.isTransfer = true → s.configured = true)
    (hsck : op ≠ .cfgfmt → s.fmtValid = true → s.sck = .driven (cpol s.cfgMode))
    (hrx : op.returnsByte = true → s.rx = 0) : Inv (beginCommand op cmd s) where
  faulted_iff := by simp [hfault]
  hz_pos := hhz
  idx_le := by simp
  configured := fun _ => hconf
  clock_rest := by simp
  clock_run := fun _ hop hfmt => by simpa [clockAfter] using hsck hop hfmt
  clock_set := by simp
  lanes_out := by simp
  lanes_in := by simp
  mosi_driven := by simp
  rx_clear := fun _ hret => by simp [hrx hret]
  held := by simp [hheld]

/-- R121: the accept step of a decoded command keeps the invariant. -/
theorem inv_of_acceptNext {i : Instr} {s t : State} (hinv : Inv s) (hs : s.seqState = .idle)
    (hheld : s.rstHeld = false) (h : AcceptNext i s t) : Inv t := by
  have hfault : s.faultCode = .noFault := faultCode_of_not_faulted hinv (by simp [hs])
  have hsck : s.fmtValid = true → s.sck = .driven (cpol s.cfgMode) := hinv.clock_rest (by simp [hs])
  cases h with
  | fault code hcode ht => exact ht ▸ inv_raiseFault hinv hs hheld hcode _
  | cfgfmt mode _ ht =>
    exact ht ▸ inv_beginCommand _ hfault hheld hinv.hz_pos nofun (absurd rfl) nofun
  | cfgfreq hz _ hz0 ht =>
    exact ht ▸ inv_beginCommand _ hfault hheld (fun _ => hz0) nofun (fun _ => hsck) nofun
  | xfer v _ hc _ ht =>
    exact ht ▸ inv_beginCommand _ hfault hheld hinv.hz_pos (fun _ => hc) (fun _ => hsck) fun _ => rfl
  | qwr v _ hc ht =>
    exact ht ▸ inv_beginCommand _ hfault hheld hinv.hz_pos (fun _ => hc) (fun _ => hsck) nofun
  | qrd _ hc ht =>
    exact ht ▸ inv_beginCommand _ hfault hheld hinv.hz_pos (fun _ => hc) (fun _ => hsck) fun _ => rfl

/-! ### The micro-step -/

section
variable {u : Instr} {s : State}

/-- R128, R130: only a toggle and a set write the clock latch. -/
theorem afterUop_sck_of_ne (htoggle : u ≠ .uToggleSck) (hset : ∀ b, u ≠ .uSetSck b) : (afterUop u s).sck = s.sck := by
  cases u with
  | uToggleSck => exact absurd rfl htoggle
  | uSetSck b => exact absurd rfl (hset b)
  | _ => rfl

/-- R131: only `U_QDIR` turns the lanes. -/
theorem afterUop_qdir_of_ne (hdir : ∀ d, u ≠ .uQdir d) : (afterUop u s).qdir = s.qdir := by
  cases u with
  | uQdir d => exact absurd rfl (hdir d)
  | _ => rfl

/-- R126: no micro-op makes the `MOSI` latch unwritten again. -/
theorem afterUop_mosi_written (h : s.mosi.written = true) : (afterUop u s).mosi.written = true := by
  cases u with
  | uDriveMosi b => rfl
  | _ => exact h

/-- R127, R133: a micro-op adds to `RX` at most the positions it fills. -/
theorem afterUop_rx_within (u : Instr) (s : State) :
    ∃ v, (afterUop u s).rx = s.rx ||| v ∧ v &&& ~~~fills u = 0 := by
  cases u with
  | uSampleMiso i => exact ⟨_, rfl, placeBit_within _ _⟩
  | uSampleq h => exact ⟨_, rfl, placeNibble_within _ _⟩
  | _ => exact ⟨0, BitVec.or_zero.symm, BitVec.zero_and⟩

end

/-- R128: one micro-op more takes the clock to the other level if it is a toggle, and leaves it otherwise. -/
theorem clockAfter_succ {op : Op} {mode : BitVec 2} {tx : Byte} {k : Nat} {u : Instr}
    (h : (uprog op mode tx)[k]? = some u) :
    clockAfter op mode tx (k + 1) =
      if u = .uToggleSck then ~~~clockAfter op mode tx k else clockAfter op mode tx k := by
  unfold clockAfter
  rw [take_succ_of_getElem? h, List.count_append, List.count_singleton]
  by_cases hu : u = .uToggleSck
  · simp only [hu, beq_self_eq_true, if_true]
    exact bit_add_succ _ _
  · simp [hu]

/-- What adds only filled positions to a register that holds only filled positions leaves it so. -/
theorem or_and_not_or_eq_zero {w : Nat} {r v f g : BitVec w} (hr : r &&& ~~~f = 0) (hv : v &&& ~~~g = 0) :
    (r ||| v) &&& ~~~(f ||| g) = 0 := by
  apply BitVec.eq_of_getLsbD_eq
  intro j hj
  have hrf := congrArg (·.getLsbD j) hr
  have hvg := congrArg (·.getLsbD j) hv
  simp only [BitVec.getLsbD_and, BitVec.getLsbD_or, BitVec.getLsbD_not, hj] at hrf hvg ⊢
  grind

/-- R170, R173: a quad command turns the lanes first, and to its own direction only. -/
theorem afterUop_qdir_of_quad {u : Instr} {s : State} {d : Dir} (hget : s.uprog[s.seqIdx]? = some u)
    (hfirst : s.uprog[0]? = some (.uQdir d))
    (hkept : s.seqIdx ≠ 0 → s.qdir = d) (honly : ∀ d', .uQdir d' ∈ s.uprog → d' = d) :
    (afterUop u s).qdir = d := by
  by_cases hu : ∃ d', u = .uQdir d'
  · obtain ⟨d', rfl⟩ := hu
    exact honly d' (List.mem_of_getElem? hget)
  · have hidx : s.seqIdx ≠ 0 := fun h0 => hu ⟨d, Option.some.inj ((h0 ▸ hget).symm.trans hfirst)⟩
    rw [afterUop_qdir_of_ne fun d' h => hu ⟨d', h⟩, hkept hidx]

section
variable {u : Instr} {s : State} (hinv : Inv s) (hb : s.seqState = .busy) (hget : s.uprog[s.seqIdx]? = some u)
include hinv hb hget

/-- R163, R170, R173: a micro-op of any command but `CFGFMT` takes the clock where `clockAfter` says. -/
theorem afterUop_sck_eq_clockAfter (hop : s.seqOp ≠ .cfgfmt) (hfmt : s.fmtValid = true) :
    (afterUop u s).sck = .driven (clockAfter s.seqOp s.cfgMode s.tx (s.seqIdx + 1)) := by
  have hsck := hinv.clock_run hb hop hfmt
  have hset : ∀ b, u ≠ .uSetSck b := fun b hu => hop (cfgfmt_of_uSetSck_mem (hu ▸ List.mem_of_getElem? hget))
  rw [clockAfter_succ hget]
  by_cases hu : u = .uToggleSck
  · rw [if_pos hu, hu, afterUop_uToggleSck_sck, State.sckLevel, hsck, driven_shown]
  · rw [if_neg hu, afterUop_sck_of_ne hu hset, hsck]

/-- R161: after the first micro-op of an `XFER` the `MOSI` latch is written. -/
theorem afterUop_mosi_written_of_xfer (hop : s.seqOp = .xfer) : (afterUop u s).mosi.written = true := by
  by_cases h0 : s.seqIdx = 0
  · rw [State.uprog, hop, h0, uprog_xfer_head] at hget
    obtain rfl := Option.some.inj hget
    rfl
  · exact afterUop_mosi_written (hinv.mosi_driven hb hop h0)

/-- R27: a micro-op leaves the positions of `RX` that are not yet sampled 0. -/
theorem afterUop_rx_clear (hret : s.seqOp.returnsByte = true) :
    (afterUop u s).rx &&& ~~~(afterUop u s).filled = 0 := by
  have hfilled : (afterUop u s).filled = s.filled ||| fills u := by
    have hprog : (afterUop u s).uprog = s.uprog := by simp [State.uprog]
    rw [State.filled, hprog, afterUop_seqIdx, take_succ_of_getElem? hget, fillsAll_append_singleton, State.filled]
  obtain ⟨v, hrx, hv⟩ := afterUop_rx_within u s
  rw [hfilled, hrx]
  exact or_and_not_or_eq_zero (hinv.rx_clear hb hret) hv

/-- R122: the micro-step of the current micro-op keeps the invariant. -/
theorem inv_afterUop (hheld : s.rstHeld = false) : Inv (afterUop u s) where
  faulted_iff := by simpa using hinv.faulted_iff
  hz_pos := by simpa using hinv.hz_pos
  idx_le := fun _ => by
    have hlt : s.seqIdx < s.uprog.length := (List.getElem?_eq_some_iff.mp hget).1
    simpa [State.uprog] using hlt
  configured := by simpa [State.configured] using hinv.configured
  clock_rest := by simp [hb]
  clock_run := by simpa using fun _ => afterUop_sck_eq_clockAfter hinv hb hget
  clock_set := fun _ hop _ => by
    have hmem := List.mem_of_getElem? hget
    simp only [State.uprog, show s.seqOp = .cfgfmt by simpa using hop, uprog, List.mem_singleton] at hmem
    simp [hmem]
  lanes_out := fun _ hop _ => by
    replace hop : s.seqOp = .qwr := by simpa using hop
    have honly : ∀ d', .uQdir d' ∈ s.uprog → d' = .out := by simp [State.uprog, hop, uprog]
    exact afterUop_qdir_of_quad hget (by rw [State.uprog, hop]; rfl) (hinv.lanes_out hb hop) honly
  lanes_in := fun _ hop _ => by
    replace hop : s.seqOp = .qrd := by simpa using hop
    have honly : ∀ d', .uQdir d' ∈ s.uprog → d' = .inp := by simp [State.uprog, hop, uprog]
    exact afterUop_qdir_of_quad hget (by rw [State.uprog, hop]; rfl) (hinv.lanes_in hb hop) honly
  mosi_driven := fun _ hop _ => afterUop_mosi_written_of_xfer hinv hb hget (by simpa using hop)
  rx_clear := fun _ hret => afterUop_rx_clear hinv hb hget (by simpa using hret)
  held := by simp [hheld]

end

/-! ### The completion step -/

/-- R123: the completion step of an engine whose clock is back at idle keeps the invariant. -/
theorem inv_complete {s : State} (hinv : Inv s) (hb : s.seqState = .busy) (hheld : s.rstHeld = false)
    (hsck : s.fmtValid = true → s.sck = .driven (cpol s.cfgMode)) : Inv (complete s) where
  faulted_iff := by simp [faultCode_of_not_faulted hinv (by simp [hb])]
  hz_pos := hinv.hz_pos
  idx_le := by simp
  configured := by simp
  clock_rest := fun _ => hsck
  clock_run := by simp
  clock_set := by simp
  lanes_out := by simp
  lanes_in := by simp
  mosi_driven := by simp
  rx_clear := by simp
  held := by simp [hheld]

/-! ### Every step -/

/-- R120: a quiet step is no reset. -/
theorem rstNow_of_enabled_quiet {s : State} (h : enabled s = .quiet) : s.rstNow = false := by
  cases hr : s.rstNow with
  | false => rfl
  | true => simp [enabled_reset_iff.mpr hr] at h

/-- R121: what the step of an enabled command can be. -/
theorem acceptNext_of_enabled {i : Instr} {s t : State} (he : enabled s = .accept i)
    (h : exec i (popHost (tick s)) = .next t) : AcceptNext i (popHost (tick s)) t := by
  obtain ⟨_, hs, w, rest, _, hd⟩ := enabled_accept he
  exact exec_command_next (decode_cmd_not_microOp hd) hs h

/-- Settles O48, by the kinds of step: all but a reset find the engine with `rst` low and so out of a held reset. -/
theorem soundnessIsKeptByEveryStep : Obligations.SoundnessIsKeptByEveryStep := by
  intro s t hinv hstep
  cases step_next_cases hstep with
  | reset _ ht => exact ht ▸ inv_tick_takeReset s
  | quiet he ht => exact ht ▸ inv_tick_of_low hinv (rstNow_of_enabled_quiet he)
  | accept i he ht =>
    obtain ⟨hr, hs, _⟩ := enabled_accept he
    exact inv_of_acceptNext (inv_popHost (inv_tick_of_low hinv hr)) hs hr (acceptNext_of_enabled he ht)
  | illegal w he ht =>
    obtain ⟨hr, hs, _⟩ := enabled_illegal he
    exact ht ▸ inv_raiseFault (inv_popHost (inv_tick_of_low hinv hr)) hs hr (by decide) w
  | micro u he ht =>
    obtain ⟨hr, hb, hget⟩ := enabled_micro he
    exact ht ▸ inv_afterUop (s := tick s) (inv_tick_of_low hinv hr) hb hget hr
  | complete he ht =>
    obtain ⟨hr, hb, _⟩ := enabled_complete he
    exact ht ▸ inv_complete (s := tick s) (inv_tick_of_low hinv hr) hb hr (sck_of_complete_enabled (s := s) hinv he)

end Sys2Proof.Machine
end

section
/-! PROOFS. 40_sequencer_uops.md R121, R126 to R133: what `exec` answers, instruction by instruction, and which elements
each instruction can write. -/

namespace Sys2Proof.Machine

/-! ### The accept step of a command that passes its checks -/

/-- R121: what the accept step of a command writes beside the sequencer's own registers: its operands, the valid bits,
and the clearing of `RX`. -/
def latchOperands (i : Instr) (s : State) : State :=
  match i with
  | .cfgfmt _ mode => { s with cfgMode := mode, fmtValid := true }
  | .cfgfreq hz => { s with cfgHz := hz, freqValid := true }
  | .xfer v => { s with tx := v, rx := 0 }
  | .qwr v => { s with tx := v }
  | .qrd => { s with rx := 0 }
  | _ => s

/-- The state in which the accepted command `i`, which runs as `op`, begins. -/
def begun (i : Instr) (op : Op) (s : State) : State := beginCommand op (commandWord i) (latchOperands i s)

/-- R207: the checks of the accept step, with the refusal of R206. -/
structure PassesChecks (i : Instr) (op : Op) (s : State) : Prop where
  op_eq : commandOp i = some op
  wellFormed : i.wellFormed = true
  configured : op.isTransfer = true → s.configured = true
  not_refused : op = .xfer → s.interleaved = false

/-- R121: a command that passes its checks in `IDLE` begins. -/
theorem exec_of_passesChecks {i : Instr} {op : Op} {s : State} (hs : s.seqState = .idle) (h : PassesChecks i op s) :
    exec i s = .next (begun i op s) := by
  obtain ⟨hop, hwf, hconf, hpads⟩ := h
  cases i with
  | cfgfmt bits mode =>
    obtain rfl := Option.some.inj hop
    rw [exec, execCfgfmt, whenIdle_of_idle hs]
    exact if_pos (beq_iff_eq.mp hwf)
  | cfgfreq hz =>
    obtain rfl := Option.some.inj hop
    rw [exec, execCfgfreq, whenIdle_of_idle hs]
    exact if_neg (bne_iff_ne.mp hwf)
  | xfer v =>
    obtain rfl := Option.some.inj hop
    rw [exec, execXfer, whenIdle_of_idle hs, whenConfigured_of_configured (hconf rfl)]
    exact if_neg (ne_true_of_eq_false (hpads rfl))
  | qwr v =>
    obtain rfl := Option.some.inj hop
    rw [exec, execQwr, whenIdle_of_idle hs, whenConfigured_of_configured (hconf rfl)]
    rfl
  | qrd =>
    obtain rfl := Option.some.inj hop
    rw [exec, execQrd, whenIdle_of_idle hs, whenConfigured_of_configured (hconf rfl)]
    rfl
  | _ => cases hop

theorem configured_of_valid {s : State} (hfmt : s.fmtValid = true) (hfreq : s.freqValid = true) :
    s.configured = true :=
  Bool.and_eq_true_iff.mpr ⟨hfmt, hfreq⟩

/-- Settles O11: width 8 passes the check, and `CFGFMT` needs no configuration. -/
theorem cfgfmtIsAccepted : Obligations.CfgfmtIsAccepted :=
  fun _ _ hs => exec_of_passesChecks hs ⟨rfl, rfl, nofun, nofun⟩

/-- Settles O13: a frequency above 0 passes the check, and `CFGFREQ` needs no configuration. -/
theorem cfgfreqIsAccepted : Obligations.CfgfreqIsAccepted :=
  fun _ _ hs hz => exec_of_passesChecks hs ⟨rfl, bne_iff_ne.mpr hz, nofun, nofun⟩

/-- Settles O15: with either part of its condition missing R206 does not refuse. -/
theorem xferIsAccepted : Obligations.XferIsAccepted := fun _ _ hs hfmt hfreq hpads =>
  exec_of_passesChecks hs ⟨rfl, rfl, fun _ => configured_of_valid hfmt hfreq, fun _ => Bool.and_eq_false_iff.mpr hpads⟩

/-- Settles O16: `QWR` has the state check only. -/
theorem qwrIsAccepted : Obligations.QwrIsAccepted := fun _ _ hs hfmt hfreq =>
  exec_of_passesChecks hs ⟨rfl, rfl, fun _ => configured_of_valid hfmt hfreq, nofun⟩

/-- Settles O17: `QRD` has the state check only. -/
theorem qrdIsAccepted : Obligations.QrdIsAccepted := fun _ hs hfmt hfreq =>
  exec_of_passesChecks hs ⟨rfl, rfl, fun _ => configured_of_valid hfmt hfreq, nofun⟩

/-- Settles O19: past the state check the answer is the refusal or the begun command, by the condition of R206. -/
theorem xferRefusedOnlyUnderSharedPads : Obligations.XferRefusedOnlyUnderSharedPads := by
  intro s v hs hfmt hfreq
  have hc : s.configured = true := configured_of_valid hfmt hfreq
  rw [← Bool.and_eq_true_iff]
  change _ ↔ s.interleaved = true
  cases ha : s.interleaved with
  | true => simp [exec, execXfer, whenIdle_of_idle hs, whenConfigured_of_configured hc, ha]
  | false => simp [exec_of_passesChecks (i := .xfer v) hs ⟨rfl, rfl, fun _ => hc, fun _ => ha⟩]

/-! ### The micro-step, micro-op by micro-op -/

/-- Settles O22: `U_WAIT` has no effect of its own. -/
theorem waitChangesOnlyTheIndex : Obligations.WaitChangesOnlyTheIndex :=
  fun _ hb => exec_microOp_of_busy rfl hb

/-- Settles O23: the effect of `U_DRIVE_MOSI` is the write of the latch. -/
theorem driveMosiWritesTheLatch : Obligations.DriveMosiWritesTheLatch :=
  fun _ _ hb => exec_microOp_of_busy rfl hb

/-- Settles O24: the effect of `U_SAMPLE_MISO` is the OR of its one read. -/
theorem sampleMisoAccumulates : Obligations.SampleMisoAccumulates :=
  fun _ _ hb => exec_microOp_of_busy rfl hb

/-- Settles O26: the effect of `U_SET_SCK` is the write of the latch. -/
theorem setSckWritesTheLatch : Obligations.SetSckWritesTheLatch :=
  fun _ _ hb => exec_microOp_of_busy rfl hb

/-- Settles O27: the effect of `U_QDIR` is the one shared direction. -/
theorem qdirSetsTheSharedDirection : Obligations.QdirSetsTheSharedDirection :=
  fun _ _ hb => exec_microOp_of_busy rfl hb

/-- Settles O28: the effect of `U_DRIVEQ` is one write of the four latches. -/
theorem driveqWritesAllLanes : Obligations.DriveqWritesAllLanes :=
  fun _ _ hb => exec_microOp_of_busy rfl hb

/-- R133: the shift of a nibble by its position. -/
theorem placeNibble_eq_shift (n : Nibble) (h : Half) :
    placeNibble n h = n.setWidth 8 <<< (if h = .high then 4 else 0) := by
  cases h with
  | high => rfl
  | low => exact (BitVec.shiftLeft_zero _).symm

/-- Settles O29: the effect of `U_SAMPLEQ` is the OR of its one read, placed by the half. -/
theorem sampleqAccumulates : Obligations.SampleqAccumulates := by
  intro s h hb
  rw [← placeNibble_eq_shift]
  exact exec_microOp_of_busy rfl hb

/-- The instructions that run as a command are those that are no micro-op. -/
theorem isSome_commandOp (i : Instr) : (commandOp i).isSome = !isMicroOp i := by
  cases i <;> rfl

/-- Settles O30: an instruction that runs as no command is a micro-op, and outside `BUSY` the micro-step answers the
state it was given. -/
theorem noMicroOpOutsideBusy : Obligations.NoMicroOpOutsideBusy := by
  intro s i hb hi
  have hu : isMicroOp i = true := by simpa [hi] using isSome_commandOp i
  exact exec_microOp_of_not_busy hu hb

/-! ### What an instruction can write -/

/-- What no accept step writes: the pins, the environment, the host's side and the model's own records but the trace. -/
structure SameOutsideCommand (s t : State) : Prop where
  sck : t.sck = s.sck
  mosi : t.mosi = s.mosi
  qout : t.qout = s.qout
  qdir : t.qdir = s.qdir
  quadRun : t.quadRun = s.quadRun
  past : t.past = s.past
  host : t.host = s.host
  rstLine : t.rstLine = s.rstLine
  rstHeld : t.rstHeld = s.rstHeld
  env : t.env = s.env
  pins : t.pins = s.pins

theorem sameOutsideCommand_of_acceptNext {i : Instr} {s t : State} (h : AcceptNext i s t) : SameOutsideCommand s t := by
  cases h <;> subst t <;> constructor <;> rfl

/-- R134: an accept step emits one event. -/
theorem trace_of_acceptNext {i : Instr} {s t : State} (h : AcceptNext i s t) : ∃ e, t.trace = e :: s.trace := by
  cases h <;> subst t <;> exact ⟨_, rfl⟩

/-- Everything an `exec` that answers a next state can have been. -/
inductive ExecNext (i : Instr) (s t : State) : Prop
  | waits (ht : t = s)
  | command (hi : isMicroOp i = false) (hs : s.seqState = .idle) (h : AcceptNext i s t)
  | micro (hi : isMicroOp i = true) (ht : t = afterUop i s)

theorem exec_next_cases {i : Instr} {s t : State} (h : exec i s = .next t) : ExecNext i s t := by
  cases hi : isMicroOp i with
  | false =>
    by_cases hs : s.seqState = .idle
    · exact .command hi hs (exec_command_next hi hs h)
    · rw [exec_command_of_not_idle hi hs] at h
      exact .waits (Host.Outcome.next.inj h).symm
  | true =>
    by_cases hb : s.seqState = .busy
    · rw [exec_microOp_of_busy hi hb] at h
      exact .micro hi (Host.Outcome.next.inj h).symm
    · rw [exec_microOp_of_not_busy hi hb] at h
      exact .waits (Host.Outcome.next.inj h).symm

/-- Settles O35: an instruction that waits writes nothing. An accept step writes no pin and nothing of the host's side,
and of the configuration and the data only what is its own command's. A micro-op writes the one element it is for. -/
theorem elementsAreWrittenOnlyByTheirOwn : Obligations.ElementsAreWrittenOnlyByTheirOwn := by
  intro i s t h
  cases exec_next_cases h with
  | waits ht => simp [ht]
  | command hi hs hacc =>
    obtain ⟨hsck, hmosi, hqout, hqdir, hquad, hpast, hhost, hline, hheld, henv, hpins⟩ :=
      sameOutsideCommand_of_acceptNext hacc
    have hcmd : (commandOp i).isSome = true := by rw [isSome_commandOp, hi]; rfl
    simp only [hsck, hmosi, hqout, hqdir, hquad, hpast, hhost, hline, hheld, henv, hpins, hcmd, hs]
    cases hacc <;> subst t <;> simp [*]
  | micro hi ht =>
    subst ht
    cases i <;> simp [isMicroOp] at hi ⊢

end Sys2Proof.Machine
end

section
/-! PROOFS. 40_sequencer_uops.md R120: which step is taken, and what every step leaves as it was. -/

namespace Sys2Proof.Machine

/-! ### The presented word -/

section
variable {s : State} {w : CmdWord} {rest : List CmdWord}

/-- R90, R120: in `IDLE` the first word on the port decides. -/
theorem enabled_of_host (hs : s.seqState = .idle) (hr : s.rstNow = false) (hh : s.host = w :: rest) :
    enabled s = enabledByWord w := by
  rw [enabled_idle hr hs, enabledInIdle, hh]

theorem enabledByWord_of_ok {i : Instr} (h : decode (.cmd w) = .ok i) : enabledByWord w = .accept i := by
  rw [enabledByWord, h]

/-- R202: a word that is no command is refused by the decoder, whatever the reason. -/
theorem enabledByWord_of_not_command (h : ¬isCommandWord w) : enabledByWord w = .illegal w := by
  cases hd : decode (.cmd w) with
  | ok i => exact absurd ((commandWordsAreExactlyTheAssignedOnes w).mp ⟨i, hd⟩) h
  | error e => rw [enabledByWord, hd]

/-- R90: the accept step finds the word taken from the port. -/
theorem popHost_tick_of_low (hr : s.rstNow = false) (hh : s.host = w :: rest) :
    popHost (tick s) = { s with host := rest, rstLine := s.rstLine.tail, rstHeld := false } := by
  rw [tick_of_low hr, popHost, hh]
  rfl

end

/-- Settles O6: the presented word enables the accept step of what it decodes to. -/
theorem stepRunsPresentedCommand : Obligations.StepRunsPresentedCommand := by
  intro s w rest i hs hr hh hd
  have he : enabled s = .accept i := (enabled_of_host hs hr hh).trans (enabledByWord_of_ok hd)
  rw [← popHost_tick_of_low hr hh]
  simp only [step, he]

/-- Settles O7: the micro-op at the index is the one enabled. -/
theorem stepRunsCurrentMicroOp : Obligations.StepRunsCurrentMicroOp := by
  intro s u hb hr hget
  have he : enabled s = .micro u := by rw [enabled_busy hr hb, enabledInBusy, State.uprog, hget]
  rw [← tick_of_low hr]
  simp only [step, he]

/-- Settles O41: nothing on the port enables nothing. -/
theorem idleWithoutCommandChangesNothing : Obligations.IdleWithoutCommandChangesNothing := by
  intro s hs hh hr
  have he : enabled s = .quiet := by rw [enabled_idle hr hs, enabledInIdle, hh]
  rw [← tick_of_low hr]
  simp only [step, he]

/-- Settles O20: a word that is no command enables the illegal step, which records the fault and takes the word. -/
theorem illegalWordFaults : Obligations.IllegalWordFaults := by
  refine ⟨rfl, fun s w rest hs hr hh hw => ?_⟩
  have he : enabled s = .illegal w := (enabled_of_host hs hr hh).trans (enabledByWord_of_not_command hw)
  simp only [step, he, acceptIllegal, popHost_tick_of_low hr hh]
  rfl

/-! ### Placing an instruction -/

/-- The model's placing of a command word (log entry 6): it is what an idle engine out of reset finds on the port. -/
theorem enabled_presentCommand (w : CmdWord) (s : State) : enabled (presentCommand w s) = enabledByWord w :=
  enabled_of_host (s := presentCommand w s) rfl rfl rfl

/-- The model's placing of a micro-op (log entry 6): it is the one at the index chosen for it. -/
theorem enabled_atIndex {op : Op} {idx : Nat} {s : State} {u : Instr}
    (h : (uprog op s.cfgMode s.tx)[idx]? = some u) : enabled (atIndex op idx s) = .micro u := by
  have hget : (atIndex op idx s).uprog[(atIndex op idx s).seqIdx]? = some u := h
  rw [enabled_busy (s := atIndex op idx s) rfl rfl, enabledInBusy, hget]

/-- R161: the sample of bit `i` stands where the lead-in of the bit ends. -/
theorem uprog_xfer_sampleIndex (mode : BitVec 2) (tx : Byte) (i : BitVec 3) :
    (uprog .xfer mode tx)[sampleIndex mode i]? = some (.uSampleMiso i) := by
  rw [uprog_xfer_eq_beforeSample_append mode tx i, sampleIndex, ← length_beforeSample mode tx i]
  simp

theorem bitAt_append_low7 (b : Bit) (tx : Byte) : bitAt (b ++ tx.extractLsb' 0 7) 7 = b :=
  BitVec.extractLsb'_append_eq_left

theorem cpol_append_cpha (b : Bit) (mode : BitVec 2) : cpol (b ++ cpha mode) = b :=
  BitVec.extractLsb'_append_eq_left

theorem upperNibble_append (n m : Nibble) : upperNibble (n ++ m) = n :=
  BitVec.extractLsb'_append_eq_left

/-- A placed micro-op is enabled: the place chosen for it holds it. -/
theorem enabled_placeInstr_of_microOp {u : Instr} (hu : isMicroOp u = true) (s : State) :
    enabled (placeInstr u s) = .micro u := by
  cases u with
  | uWait => exact enabled_atIndex rfl
  | uDriveMosi b => exact enabled_atIndex (by rw [uprog_xfer_head, bitAt_append_low7])
  | uSampleMiso i => exact enabled_atIndex (uprog_xfer_sampleIndex _ _ _)
  | uToggleSck => exact enabled_atIndex rfl
  | uSetSck b => exact enabled_atIndex (by simp [uprog, cpol_append_cpha])
  | uQdir d => cases d <;> exact enabled_atIndex rfl
  | uDriveq n => exact enabled_atIndex (by simp [uprog, upperNibble_append])
  | uSampleq h => cases h <;> exact enabled_atIndex rfl
  | _ => simp [isMicroOp] at hu

/-- Settles O10: the code decodes to the instruction again, so a command is what the port presents and a micro-op is put
at its place. -/
theorem placedInstructionIsTaken : Obligations.PlacedInstructionIsTaken := by
  intro s i
  have hd : decode (encode i) = .ok i := decodeUndoesEncode i
  rw [isSome_commandOp]
  cases hc : encode i with
  | cmd w =>
    rw [hc] at hd
    rw [decode_cmd_not_microOp hd, placeCode, enabled_presentCommand, enabledByWord_of_ok hd]
    rfl
  | uop u =>
    have hu : isMicroOp i = true := by
      cases i with
      | cfgfmt | cfgfreq | xfer | qwr | qrd => cases hc
      | _ => rfl
    replace hd : decodeUop u = .ok i := by rw [hc] at hd; exact hd
    simp only [placeCode, hd, hu]
    exact enabled_placeInstr_of_microOp hu s

/-! ### What a step keeps -/

/-- R123: the quad commands. -/
theorem isQuad_eq_decide (op : Op) : op.isQuad = decide (op = .qwr ∨ op = .qrd) := by
  cases op <;> rfl

/-- Settles O9: a reset clears the record, the completion step is the only one that sets it, and no other touches it. -/
theorem quadRunRecordsQuadCommands : Obligations.QuadRunRecordsQuadCommands := by
  intro s t hstep
  rw [← isQuad_eq_decide]
  cases step_next_cases hstep with
  | reset hr ht => simp [ht, hr]
  | quiet he ht => simp [ht, he, rstNow_of_enabled_quiet he]
  | accept i he ht =>
    have hsame := sameOutsideCommand_of_acceptNext (acceptNext_of_enabled he ht)
    simp [hsame.quadRun, he, (enabled_accept he).1]
  | illegal w he ht => simp [ht, he, (enabled_illegal he).1]
  | micro u he ht => simp [ht, he, (enabled_micro he).1]
  | complete he ht => simp [ht, he, (enabled_complete he).1]

/-- R90, R120: outside `IDLE` the words on the port decide nothing. -/
theorem enabled_with_host_of_not_idle {s : State} (hs : s.seqState ≠ .idle) (hr : s.rstNow = false)
    (l : List CmdWord) : enabled { s with host := l } = enabled s := by
  obtain hb | hf : s.seqState = .busy ∨ s.seqState = .faulted := by
    cases hq : s.seqState <;> simp_all
  · rw [enabled_busy hr hb, enabled_busy (s := { s with host := l }) hr hb]
    rfl
  · rw [enabled_faulted hr hf, enabled_faulted (s := { s with host := l }) hr hf]

/-- R90: outside `IDLE` the words on the port stay there while the engine steps. -/
theorem step_with_host_of_not_idle {s t : State} (hs : s.seqState ≠ .idle) (hr : s.rstNow = false)
    (hstep : step s = .next t) (l : List CmdWord) : step { s with host := l } = .next { t with host := l } := by
  have hen := enabled_with_host_of_not_idle hs hr l
  cases step_next_cases hstep with
  | reset hr' _ => simp [hr] at hr'
  | accept i he _ => exact absurd (enabled_accept he).2.1 hs
  | illegal w he _ => exact absurd (enabled_illegal he).2.1 hs
  | quiet he ht =>
    subst ht
    simp only [step, hen, he]
    rfl
  | micro u he ht =>
    rw [ht, step_of_enabled_micro (hen.trans he), ← afterUop_with_host]
    rfl
  | complete he ht =>
    subst ht
    simp only [step, hen, he]
    rfl

/-- R90: a step that does not start in `IDLE` takes no word. -/
theorem host_of_step_not_idle {s t : State} (hs : s.seqState ≠ .idle) (hstep : step s = .next t) : t.host = s.host := by
  cases step_next_cases hstep with
  | accept i he _ => exact absurd (enabled_accept he).2.1 hs
  | illegal w he _ => exact absurd (enabled_illegal he).2.1 hs
  | reset _ ht => simp [ht]
  | quiet _ ht => simp [ht]
  | micro u _ ht => simp [ht]
  | complete _ ht => simp [ht]

/-- Settles O21: outside `IDLE` the accept step waits, and no step reads or takes the words on the port. -/
theorem commandWaitsUntilIdle : Obligations.CommandWaitsUntilIdle := by
  intro s hs
  refine ⟨fun i hi => ?waits, fun t w hstep => ⟨host_of_step_not_idle hs hstep, fun hr => ?further⟩⟩
  case waits =>
    rw [isSome_commandOp, Bool.not_eq_true'] at hi
    exact exec_command_of_not_idle hi hs
  case further => exact step_with_host_of_not_idle hs hr hstep _

/-- What a step with `rst` low makes of a latch: it stays, or it is written. -/
def KeptOrWritten {w : Nat} (before after : Latch w) : Prop := after = before ∨ after.written = true

/-- R126, R128, R130, R132: a micro-op that touches a latch writes it. -/
theorem keptOrWritten_afterUop (u : Instr) (s : State) :
    KeptOrWritten s.sck (afterUop u s).sck ∧ KeptOrWritten s.mosi (afterUop u s).mosi ∧
    KeptOrWritten s.qout (afterUop u s).qout := by
  cases u with
  | uDriveMosi b => exact ⟨.inl rfl, .inr rfl, .inl rfl⟩
  | uToggleSck => exact ⟨.inr rfl, .inl rfl, .inl rfl⟩
  | uSetSck b => exact ⟨.inr rfl, .inl rfl, .inl rfl⟩
  | uDriveq n => exact ⟨.inl rfl, .inl rfl, .inr rfl⟩
  | _ => exact ⟨.inl rfl, .inl rfl, .inl rfl⟩

/-- What a step that is no reset keeps, whichever it is. -/
structure LowStep (s t : State) : Prop where
  past : t.past = s.past
  trace : t.trace = s.trace ∨ ∃ e, t.trace = e :: s.trace
  sck : KeptOrWritten s.sck t.sck
  mosi : KeptOrWritten s.mosi t.mosi
  qout : KeptOrWritten s.qout t.qout

theorem lowStep_of_step {s t : State} (hr : s.rstNow = false) (hstep : step s = .next t) : LowStep s t := by
  cases step_next_cases hstep with
  | reset hr' _ => simp [hr] at hr'
  | quiet _ ht => exact ht ▸ ⟨rfl, .inl rfl, .inl rfl, .inl rfl, .inl rfl⟩
  | accept i he ht =>
    have hacc := acceptNext_of_enabled he ht
    have hsame := sameOutsideCommand_of_acceptNext hacc
    have htrace : ∃ e, t.trace = e :: s.trace := trace_of_acceptNext (s := popHost (tick s)) hacc
    exact ⟨hsame.past, .inr htrace, .inl hsame.sck, .inl hsame.mosi, .inl hsame.qout⟩
  | illegal w _ ht => exact ht ▸ ⟨rfl, .inr ⟨_, rfl⟩, .inl rfl, .inl rfl, .inl rfl⟩
  | micro u _ ht =>
    obtain ⟨hsck, hmosi, hqout⟩ := keptOrWritten_afterUop u (tick s)
    exact ht ▸ ⟨afterUop_past u _, .inr ⟨_, afterUop_trace u _⟩, hsck, hmosi, hqout⟩
  | complete _ ht => exact ht ▸ ⟨rfl, .inr ⟨_, rfl⟩, .inl rfl, .inl rfl, .inl rfl⟩

/-- Settles O36: each kind of step but the quiet one emits one event, and only a reset touches the earlier traces. -/
theorem traceGrowsByAtMostOneEvent : Obligations.TraceGrowsByAtMostOneEvent :=
  fun _ _ hr hstep => ⟨(lowStep_of_step hr hstep).past, (lowStep_of_step hr hstep).trace⟩

/-- R38: a latch that is still unwritten has been kept, so it shows the same free value. -/
theorem shown_of_keptOrWritten {w : Nat} {before after : Latch w} (h : KeptOrWritten before after)
    (hw : after.written = false) (free : BitVec w) : after.shown free = before.shown free := by
  obtain rfl | hw' := h
  · rfl
  · simp [hw] at hw'

/-- Settles O43: without a reset the free values, which hang on the earlier traces, stay, and so does a latch not yet
written. -/
theorem unwrittenLevelIsFixed : Obligations.UnwrittenLevelIsFixed := by
  intro s t hr hstep
  obtain ⟨hpast, _, hsck, hmosi, hqout⟩ := lowStep_of_step hr hstep
  simp only [State.sckLevel, State.mosiLevel, State.qoutLevel, hpast]
  exact ⟨fun hw => shown_of_keptOrWritten hsck hw _, fun hw => shown_of_keptOrWritten hmosi hw _,
    fun hw => shown_of_keptOrWritten hqout hw _⟩

/-- R137, R208: the way into `FAULTED` with `rst` low is from `IDLE`, or from `FAULTED` itself, and moves no pin. -/
theorem step_to_faulted {s t : State} (hr : s.rstNow = false) (hstep : step s = .next t) (ht : t.seqState = .faulted) :
    s.seqState ≠ .busy ∧ t.sck = s.sck ∧ t.mosi = s.mosi ∧ t.qout = s.qout ∧ t.qdir = s.qdir := by
  cases step_next_cases hstep with
  | reset hr' _ => simp [hr] at hr'
  | quiet _ htick =>
    subst htick
    exact ⟨by simp [show s.seqState = .faulted from ht], rfl, rfl, rfl, rfl⟩
  | accept i he hex =>
    obtain ⟨_, hs, _⟩ := enabled_accept he
    have hsame := sameOutsideCommand_of_acceptNext (acceptNext_of_enabled he hex)
    exact ⟨by simp [hs], hsame.sck, hsame.mosi, hsame.qout, hsame.qdir⟩
  | illegal w he hfault =>
    obtain ⟨_, hs, _⟩ := enabled_illegal he
    subst hfault
    exact ⟨by simp [hs], rfl, rfl, rfl, rfl⟩
  | micro u he hafter => simp [hafter, (enabled_micro he).2.1] at ht
  | complete _ hdone => simp [hdone] at ht

/-- In `FAULTED` a command waits and a micro-op is not performed (log entry 10). -/
theorem exec_of_faulted {s : State} (hs : s.seqState = .faulted) (i : Instr) : exec i s = .next s := by
  cases hi : isMicroOp i with
  | false => exact exec_command_of_not_idle hi (by simp [hs])
  | true => exact exec_microOp_of_not_busy hi (by simp [hs])

/-- Settles O37: `FAULTED` enables only the quiet step, and it is entered by a fault of the accept step. -/
theorem faultedDoesNothing : Obligations.FaultedDoesNothing := by
  refine ⟨fun s hs => ⟨fun hr => ?_, exec_of_faulted hs⟩, fun _ _ => step_to_faulted⟩
  rw [step_of_faulted hr hs, tick_of_low hr]

/-! ### `CFG.HZ` -/

/-- The same state with another `CFG.HZ`. -/
def withHz (hz : BitVec 32) (s : State) : State := { s with cfgHz := hz }

/-- The second outcome is the first one with `hz` in `CFG.HZ`, where the first is a next state. -/
def CarriesHz (hz : BitVec 32) (o o' : Host.Outcome State Fault Refusal) : Prop :=
  ∀ t, o = .next t → o' = .next (withHz hz t)

section
variable {hz : BitVec 32} {s : State}

theorem carriesHz_next (t : State) : CarriesHz hz (.next t) (.next (withHz hz t)) :=
  fun _ h => Host.Outcome.next.inj h ▸ rfl

theorem carriesHz_refused (r : Refusal) (o : Host.Outcome State Fault Refusal) : CarriesHz hz (.refused r) o :=
  fun _ h => nomatch h

theorem ite_carriesHz {c : Prop} [Decidable c] {o o' p p' : Host.Outcome State Fault Refusal}
    (ho : CarriesHz hz o o') (hp : CarriesHz hz p p') :
    CarriesHz hz (if c then o else p) (if c then o' else p') := by
  split
  · exact ho
  · exact hp

section
variable {f g : State → Host.Outcome State Fault Refusal} (hfg : CarriesHz hz (f s) (g (withHz hz s)))
include hfg

theorem whenIdle_carriesHz : CarriesHz hz (whenIdle s f) (whenIdle (withHz hz s) g) := by
  by_cases hs : s.seqState = .idle
  · rwa [whenIdle_of_idle hs, whenIdle_of_idle (s := withHz hz s) hs]
  · rw [whenIdle_of_not_idle hs, whenIdle_of_not_idle (s := withHz hz s) hs]
    exact carriesHz_next s

theorem whenConfigured_carriesHz (cmd : CmdWord) :
    CarriesHz hz (whenConfigured cmd s f) (whenConfigured cmd (withHz hz s) g) := by
  cases hc : s.configured with
  | true => rwa [whenConfigured_of_configured hc, whenConfigured_of_configured (s := withHz hz s) hc]
  | false =>
    rw [whenConfigured_of_not hc, whenConfigured_of_not (s := withHz hz s) hc]
    exact carriesHz_next (raiseFault .notConfigured cmd s)

end

/-- R25: `exec` reads `CFG.HZ` nowhere, and only `CFGFREQ` writes it. -/
theorem exec_carriesHz {i : Instr} (hi : ∀ n, i ≠ .cfgfreq n) : CarriesHz hz (exec i s) (exec i (withHz hz s)) := by
  cases hu : isMicroOp i with
  | true =>
    by_cases hb : s.seqState = .busy
    · have hafter : afterUop i (withHz hz s) = withHz hz (afterUop i s) := afterUop_with_cfgHz i s hz
      rw [exec_microOp_of_busy hu hb, exec_microOp_of_busy (s := withHz hz s) hu hb, hafter]
      exact carriesHz_next _
    · rw [exec_microOp_of_not_busy hu hb, exec_microOp_of_not_busy (s := withHz hz s) hu hb]
      exact carriesHz_next s
  | false =>
    cases i with
    | cfgfmt bits mode =>
      rw [exec, execCfgfmt, exec, execCfgfmt]
      exact whenIdle_carriesHz (ite_carriesHz
        (carriesHz_next (beginCommand .cfgfmt (commandWord (.cfgfmt bits mode))
          { s with cfgMode := mode, fmtValid := true }))
        (carriesHz_next (raiseFault .widthUnsupported (commandWord (.cfgfmt bits mode)) s)))
    | cfgfreq n => exact absurd rfl (hi n)
    | xfer v =>
      rw [exec, execXfer, exec, execXfer]
      exact whenIdle_carriesHz (whenConfigured_carriesHz (ite_carriesHz (carriesHz_refused _ _)
        (carriesHz_next (beginCommand .xfer (commandWord (.xfer v)) { s with tx := v, rx := 0 }))) _)
    | qwr v =>
      rw [exec, execQwr, exec, execQwr]
      refine whenIdle_carriesHz (whenConfigured_carriesHz ?_ _)
      exact carriesHz_next (beginCommand .qwr (commandWord (.qwr v)) { s with tx := v })
    | qrd =>
      rw [exec, execQrd, exec, execQrd]
      refine whenIdle_carriesHz (whenConfigured_carriesHz ?_ _)
      exact carriesHz_next (beginCommand .qrd (commandWord .qrd) { s with rx := 0 })
    | _ => simp [isMicroOp] at hu

/-- R151: `CFGFREQ` writes `CFG.HZ` without reading it. -/
theorem exec_cfgfreq_withHz {n : BitVec 32} {t : State} (hs : s.seqState = .idle)
    (h : exec (.cfgfreq n) s = .next t) : ∃ hz', exec (.cfgfreq n) (withHz hz s) = .next (withHz hz' t) := by
  rw [exec, execCfgfreq, whenIdle_of_idle hs] at h
  rw [exec, execCfgfreq, whenIdle_of_idle (s := withHz hz s) hs]
  split_ifs at h ⊢
  · exact ⟨hz, carriesHz_next (raiseFault .freqZero _ s) _ h⟩
  · obtain rfl := Host.Outcome.next.inj h
    exact ⟨n, rfl⟩

end

/-- Settles O42: what is enabled does not hang on `CFG.HZ`, and each kind of step carries it along, but for a reset,
which clears it, and a `CFGFREQ`, which writes it. -/
theorem frequencyDecidesNothing : Obligations.FrequencyDecidesNothing := by
  intro s t hz hstep
  change ∃ hz', step (withHz hz s) = .next (withHz hz' t) ∧ _
  have hen : enabled (withHz hz s) = enabled s := rfl
  cases step_next_cases hstep with
  | reset hr ht =>
    refine ⟨0, ?_, fun hr' => by simp [hr'] at hr⟩
    rw [ht, step_of_rst (s := withHz hz s) hr]
    rfl
  | quiet he ht =>
    refine ⟨hz, ?_, fun _ _ => rfl⟩
    simp only [step, hen, he, ht]
    rfl
  | accept i he ht =>
    have haccept : step (withHz hz s) = exec i (withHz hz (popHost (tick s))) := by
      simp only [step, hen, he]
      rfl
    rw [haccept, he]
    by_cases hi : ∃ n, i = .cfgfreq n
    · obtain ⟨n, rfl⟩ := hi
      obtain ⟨hz', h⟩ := exec_cfgfreq_withHz (s := popHost (tick s)) (hz := hz) (enabled_accept he).2.1 ht
      exact ⟨hz', h, fun _ hn => absurd rfl (hn n)⟩
    · exact ⟨hz, exec_carriesHz (fun n h => hi ⟨n, h⟩) t ht, fun _ _ => rfl⟩
  | illegal w he ht =>
    refine ⟨hz, ?_, fun _ _ => rfl⟩
    simp only [step, hen, he, ht]
    rfl
  | micro u he ht =>
    refine ⟨hz, ?_, fun _ _ => rfl⟩
    rw [ht, step_of_enabled_micro (hen.trans he)]
    exact congrArg _ (afterUop_with_cfgHz u (tick s) hz)
  | complete he ht =>
    refine ⟨hz, ?_, fun _ _ => rfl⟩
    simp only [step, hen, he, ht]
    rfl

end Sys2Proof.Machine
end

section
/-! PROOFS. What holds in every sound state: at a toggle, at a sample, in `BUSY`; and that a sound state has a step. -/

namespace Sys2Proof.Machine

/-! ### The clock and the lanes at the current micro-op -/

section
variable {s : State} (hinv : Inv s)
include hinv

/-- R128: a transfer runs configured, so its toggles find the clock driven. -/
theorem sck_written_of_toggle_enabled (he : enabled s = .micro .uToggleSck) : s.sck.written = true := by
  obtain ⟨_, hb, hget⟩ := enabled_micro he
  have htransfer : s.seqOp.isTransfer = true := transfer_of_uToggleSck_mem (List.mem_of_getElem? hget)
  have hfmt : s.fmtValid = true := (Bool.and_eq_true_iff.mp (hinv.configured hb htransfer)).1
  rw [hinv.clock_run hb (fun hop => by simp [hop, Op.isTransfer] at htransfer) hfmt]
  rfl

/-- R173: a `QRD` turns the lanes to inputs before it samples them. -/
theorem qdir_of_sampleq_enabled {h : Half} (he : enabled s = .micro (.uSampleq h)) : s.qdir = .inp := by
  obtain ⟨_, hb, hget⟩ := enabled_micro he
  have hop : s.seqOp = .qrd := qrd_of_uSampleq_mem (List.mem_of_getElem? hget)
  refine hinv.lanes_in hb hop fun h0 => ?_
  simp [State.uprog, hop, h0, uprog] at hget

/-- R170: a `QWR` turns the lanes to outputs before it drives them. -/
theorem qdir_of_driveq_enabled {n : Nibble} (he : enabled s = .micro (.uDriveq n)) : s.qdir = .out := by
  obtain ⟨_, hb, hget⟩ := enabled_micro he
  have hop : s.seqOp = .qwr := qwr_of_uDriveq_mem (List.mem_of_getElem? hget)
  refine hinv.lanes_out hb hop fun h0 => ?_
  simp [State.uprog, hop, h0, uprog] at hget

end

/-- Settles O25: the effect of `U_TOGGLE_SCK` is the complement of the level shown, and in a sound state the latch
shows its own. -/
theorem toggleComplementsTheClock : Obligations.ToggleComplementsTheClock :=
  ⟨fun _ hb => exec_microOp_of_busy rfl hb, fun _ => sck_written_of_toggle_enabled⟩

/-- Settles O50: each quad command turns the lanes, and to its own direction, before it touches them. -/
theorem lanesAreNeverSampledWhileDriven : Obligations.LanesAreNeverSampledWhileDriven :=
  fun _ hinv => ⟨fun _ => qdir_of_sampleq_enabled hinv, fun _ => qdir_of_driveq_enabled hinv⟩

/-! ### Samples -/

/-- A field that a mask covers is 0 where the masked word is. -/
theorem extractLsb'_eq_zero_of_and {w : Nat} {x m : BitVec w} {start len : Nat} (h : x &&& m = 0)
    (hm : m.extractLsb' start len = BitVec.allOnes len) : x.extractLsb' start len = 0 := by
  calc x.extractLsb' start len
      = x.extractLsb' start len &&& m.extractLsb' start len := by rw [hm, BitVec.and_allOnes]
    _ = (x &&& m).extractLsb' start len := BitVec.extractLsb'_and.symm
    _ = 0 := by rw [h]; exact BitVec.extractLsb'_zero

/-- The mask of the bits up to `i` covers bit `i`. -/
theorem extract_mask_to_bit (i : BitVec 3) :
    (BitVec.ofNat 8 (2 ^ (i.toNat + 1) - 1)).extractLsb' i.toNat 1 = BitVec.allOnes 1 := by
  revert i; decide

theorem extract_placeBit_same (b : Bit) (i : BitVec 3) : (placeBit b i).extractLsb' i.toNat 1 = b := by
  revert b i; decide

theorem extract_placeBit_other (b : Bit) (i : BitVec 3) :
    ∀ j < 8, j ≠ i.toNat → (placeBit b i).extractLsb' j 1 = 0 := by
  revert b i; decide

/-- Before a lane sample a `QRD` has filled nothing, or the high nibble. -/
theorem fillsAll_before_sampleq {mode : BitVec 2} {tx : Byte} {k : Nat} {h : Half}
    (hget : (uprog .qrd mode tx)[k]? = some (.uSampleq h)) :
    fillsAll ((uprog .qrd mode tx).take k) = if h = .high then 0x00 else 0xF0 := by
  have hk : k < 11 := (List.getElem?_eq_some_iff.mp hget).1
  simp only [uprog] at hget ⊢
  interval_cases k <;> simp at hget <;> subst hget <;> rfl

section
variable {s : State} (hinv : Inv s)
include hinv

/-- R27: before the sample of bit `i` the bits of `RX` up to `i` are 0. -/
theorem rx_clear_before_sample {i : BitVec 3} (he : enabled s = .micro (.uSampleMiso i)) :
    s.rx &&& BitVec.ofNat 8 (2 ^ (i.toNat + 1) - 1) = 0 := by
  obtain ⟨_, hb, hget⟩ := enabled_micro he
  have hop : s.seqOp = .xfer := xfer_of_uSampleMiso_mem (List.mem_of_getElem? hget)
  have hclear := hinv.rx_clear hb (by rw [hop]; rfl)
  rw [State.uprog, hop] at hget
  rwa [State.filled, State.uprog, hop, fillsAll_before_sample hget, BitVec.not_not] at hclear

/-- R27: before a lane sample the nibbles of `RX` not yet sampled are 0. -/
theorem rx_clear_before_sampleq {h : Half} (he : enabled s = .micro (.uSampleq h)) :
    s.rx &&& ~~~(if h = .high then 0x00 else 0xF0) = 0 := by
  obtain ⟨_, hb, hget⟩ := enabled_micro he
  have hop : s.seqOp = .qrd := qrd_of_uSampleq_mem (List.mem_of_getElem? hget)
  have hclear := hinv.rx_clear hb (by rw [hop]; rfl)
  rw [State.uprog, hop] at hget
  rwa [State.filled, State.uprog, hop, fillsAll_before_sampleq hget] at hclear

end

/-- With the low nibble clear the OR of a nibble puts it there. -/
theorem or_setWidth_of_low_clear {x : Byte} (h : x.extractLsb' 0 4 = 0) (n : Nibble) :
    x ||| n.setWidth 8 = x.extractLsb' 4 4 ++ n := by
  have hx : x.extractLsb' 4 4 ++ (0 : Nibble) = x := by
    rw [← h]
    exact append_argument_of_pattern (m := 4) (n := 4) rfl
  generalize x.extractLsb' 4 4 = hi at hx ⊢
  subst hx
  revert hi n
  decide

/-- Settles O31: the positions a sample fills are clear before it, so its OR puts the sampled value there; the value it
ORs in is 0 elsewhere. -/
theorem samplingIsAssignment : Obligations.SamplingIsAssignment := by
  intro s hinv
  refine ⟨fun i he => ?bit, fun he => ?high, fun he => ?low⟩
  case bit =>
    have hbit : s.rx.extractLsb' i.toNat 1 = 0 :=
      extractLsb'_eq_zero_of_and (rx_clear_before_sample hinv he) (extract_mask_to_bit i)
    refine ⟨hbit, _, step_of_enabled_micro he, ?_, fun j hj hne => ?_⟩
    · rw [afterUop_uSampleMiso_rx, BitVec.extractLsb'_or, extract_placeBit_same, tick_rx, hbit]
      exact BitVec.zero_or
    · rw [afterUop_uSampleMiso_rx, BitVec.extractLsb'_or, extract_placeBit_other _ _ j hj hne]
      exact BitVec.or_zero
  case high =>
    have hclear : s.rx &&& BitVec.allOnes 8 = 0 := rx_clear_before_sampleq hinv he
    have hrx : s.rx = 0 := BitVec.and_allOnes.symm.trans hclear
    refine ⟨_, step_of_enabled_micro he, ?_, by rw [hrx]; rfl⟩
    rw [afterUop_uSampleq_rx, tick_rx, hrx]
    generalize (pinReadQ (tick s)).1 = n
    revert n; decide
  case low =>
    have hlow : s.rx.extractLsb' 0 4 = 0 := extractLsb'_eq_zero_of_and (rx_clear_before_sampleq hinv he) (by decide)
    refine ⟨_, step_of_enabled_micro he, ?_, hlow⟩
    rw [afterUop_uSampleq_rx, tick_rx]
    exact or_setWidth_of_low_clear hlow _

/-! ### A next state -/

/-- R120, R29: in `BUSY` a sound engine has a micro-op to play, or completes. -/
theorem enabled_of_sound_busy {s : State} (hinv : Inv s) (hb : s.seqState = .busy) (hr : s.rstNow = false) :
    (∃ u, enabled s = .micro u) ∨ enabled s = .complete := by
  have hle := hinv.idx_le hb
  rw [enabled_busy hr hb, enabledInBusy]
  cases hget : s.uprog[s.seqIdx]? with
  | some u => exact .inl ⟨u, rfl⟩
  | none =>
    have hend : s.seqIdx = s.uprog.length := le_antisymm hle (List.getElem?_eq_none_iff.mp hget)
    exact .inr (if_pos hend)

theorem step_of_enabled_complete {s : State} (he : enabled s = .complete) : step s = .next (complete (tick s)) := by
  simp only [step, he]

/-- Settles O39: neither a micro-step nor the completion step touches the fault record. -/
theorem noFaultWhileBusy : Obligations.NoFaultWhileBusy := by
  intro s hinv hb hr
  obtain ⟨u, he⟩ | he := enabled_of_sound_busy hinv hb hr
  · exact ⟨_, step_of_enabled_micro he, by simp, by simp, by simp [hb]⟩
  · exact ⟨_, step_of_enabled_complete he, by simp, by simp, by simp⟩

/-- R206: only a refused `XFER` has no next state. -/
theorem exists_exec_next {s : State} (ha : s.interleaved = false) (i : Instr) : ∃ t, exec i s = .next t := by
  cases hu : isMicroOp i with
  | true =>
    by_cases hb : s.seqState = .busy
    · exact ⟨_, exec_microOp_of_busy hu hb⟩
    · exact ⟨_, exec_microOp_of_not_busy hu hb⟩
  | false =>
    by_cases hs : s.seqState = .idle
    case neg => exact ⟨_, exec_command_of_not_idle hu hs⟩
    cases i with
    | cfgfmt bits mode =>
      by_cases hb : bits = 8
      · exact ⟨_, exec_of_passesChecks hs ⟨rfl, beq_iff_eq.mpr hb, nofun, nofun⟩⟩
      · exact ⟨_, exec_cfgfmt_of_other_width hs hb mode⟩
    | cfgfreq hz =>
      by_cases hz0 : hz = 0
      · subst hz0
        exact ⟨_, exec_cfgfreq_zero hs⟩
      · exact ⟨_, exec_of_passesChecks hs ⟨rfl, bne_iff_ne.mpr hz0, nofun, nofun⟩⟩
    | xfer v =>
      cases hc : s.configured with
      | true => exact ⟨_, exec_of_passesChecks hs ⟨rfl, rfl, fun _ => hc, fun _ => ha⟩⟩
      | false => exact ⟨_, whenIdle_whenConfigured_of_not hs hc _ _⟩
    | qwr v =>
      cases hc : s.configured with
      | true => exact ⟨_, exec_of_passesChecks hs ⟨rfl, rfl, fun _ => hc, nofun⟩⟩
      | false => exact ⟨_, whenIdle_whenConfigured_of_not hs hc _ _⟩
    | qrd =>
      cases hc : s.configured with
      | true => exact ⟨_, exec_of_passesChecks hs ⟨rfl, rfl, fun _ => hc, nofun⟩⟩
      | false => exact ⟨_, whenIdle_whenConfigured_of_not hs hc _ _⟩
    | _ => simp [isMicroOp] at hu

/-- Settles O40, by what is enabled: the index of a sound state is not past the end, and on separate pads nothing is
refused. -/
theorem soundStatesAlwaysStep : Obligations.SoundStatesAlwaysStep := by
  intro s hinv hpads
  cases he : enabled s with
  | reset => exact ⟨_, step_of_rst (enabled_reset_iff.mp he)⟩
  | quiet => exact ⟨tick s, by simp only [step, he]⟩
  | accept i =>
    have ha : (popHost (tick s)).interleaved = false := Bool.and_eq_false_iff.mpr (.inl hpads)
    obtain ⟨t, ht⟩ := exists_exec_next ha i
    exact ⟨t, by simp only [step, he, ht]⟩
  | illegal w => exact ⟨acceptIllegal w (tick s), by simp only [step, he]⟩
  | micro u => exact ⟨_, step_of_enabled_micro he⟩
  | complete => exact ⟨_, step_of_enabled_complete he⟩
  | pastEnd =>
    obtain ⟨_, hb, hlt⟩ := enabled_pastEnd he
    exact absurd (hinv.idx_le hb) (Nat.not_le.mpr hlt)

end Sys2Proof.Machine
end

section
/-! PROOFS. 10_state.md R38, R44 and 70_reset_and_hazards.md R230, R232: the pads, and the engine in reset. -/

namespace Sys2Proof.Machine

/-- Settles O44: a written latch shows its own level, and the direction of the lanes decides whether they show
theirs. -/
theorem padsShowTheLatches : Obligations.PadsShowTheLatches := by
  refine fun s => ⟨rfl, fun hw => ?sck, fun hw => ?mosi, fun hin l => ?notDriven, fun hout hw l => ?lane⟩
  case sck => rw [State.pad, State.sckLevel, shown_of_written _ hw]
  case mosi => rw [State.pad, State.mosiLevel, shown_of_written _ hw]
  case notDriven => simp only [State.pad, hin]
  case lane =>
    simp only [State.pad, hout, State.qoutLevel, shown_of_written _ hw]
    rfl

/-- Settles O45: nine closed values. -/
theorem resetHoldsTheSpecsValues : Obligations.ResetHoldsTheSpecsValues :=
  ⟨rfl, rfl, rfl, rfl, rfl, rfl, rfl, rfl, rfl⟩

/-- R232: what the engine keeps while `rst` is held: no latch is written, the lanes are inputs, and the traces before
the reset, which fix the `undef` levels, are `past`. -/
structure HeldInReset (past : History) (s : State) : Prop where
  rstHeld : s.rstHeld = true
  past_eq : s.past = past
  sck : s.sck.written = false
  mosi : s.mosi.written = false
  qout : s.qout.written = false
  qdir : s.qdir = .inp

section
variable {past : History} {s t : State}

/-- R230: a step with `rst` high puts the engine in reset; one that finds it held keeps the earlier traces. -/
theorem heldInReset_of_takeReset (hr : s.rstNow = true) :
    HeldInReset (if s.rstHeld then s.past else s.trace :: s.past) (tick (takeReset s)) :=
  ⟨hr, rfl, rfl, rfl, rfl, rfl⟩

theorem HeldInReset.step (h : HeldInReset past s) (hr : s.rstNow = true) :
    HeldInReset past (tick (takeReset s)) := by
  simpa [h.rstHeld, h.past_eq] using heldInReset_of_takeReset hr

theorem rstNow_of_getElem? (h : s.rstLine[0]? = some true) : s.rstNow = true := by
  rw [State.rstNow, List.headD_eq_head?_getD, List.head?_eq_getElem?, h]
  rfl

/-- R232: however long `rst` is held, the engine stays in the same reset. -/
theorem HeldInReset.run (n : Nat) (h : HeldInReset past s) (hline : ∀ k < n, s.rstLine[k]? = some true) :
    ∃ u, Host.Core.run core n s = .next u ∧ HeldInReset past u := by
  induction n generalizing s with
  | zero => exact ⟨s, rfl, h⟩
  | succ n ih =>
    have hr : s.rstNow = true := rstNow_of_getElem? (hline 0 (by omega))
    rw [run_succ (step_of_rst hr)]
    refine ih (h.step hr) fun k hk => ?_
    rw [tick_rstLine, takeReset_rstLine, List.getElem?_tail]
    exact hline (k + 1) (by omega)

/-- R38: two states of one reset show the same levels. -/
theorem HeldInReset.same_ports (hs : HeldInReset past s) (ht : HeldInReset past t) :
    t.sckPort = s.sckPort ∧ t.mosiPort = s.mosiPort ∧ t.qPort = s.qPort := by
  simp [State.sckPort, State.sckLevel, State.mosiPort, State.mosiLevel, State.qPort, State.qoutLevel, Latch.shown,
    hs.sck, ht.sck, hs.mosi, ht.mosi, hs.qout, ht.qout, hs.past_eq, ht.past_eq]

theorem HeldInReset.qOutputEnable_eq (h : HeldInReset past s) : s.qOutputEnable = 0 := by
  rw [State.qOutputEnable, h.qdir]
  rfl

end

/-- Settles O46: `takeReset` asks nothing of the state it interrupts, and each further step with `rst` high is one more
of the same reset. -/
theorem resetFromAnyState : Obligations.ResetFromAnyState := by
  refine ⟨fun s hr => ?first, fun s n hline => ?held⟩
  case first =>
    exact ⟨_, step_of_rst hr, rfl, rfl, rfl, rfl, rfl, rfl, rfl, rfl, rfl, rfl, rfl, rfl⟩
  case held =>
    have hr : s.rstNow = true := rstNow_of_getElem? (hline 0 (by omega))
    have hheld := heldInReset_of_takeReset hr
    have hfurther : ∀ k < n, (tick (takeReset s)).rstLine[k]? = some true := fun k hk => by
      rw [tick_rstLine, takeReset_rstLine, List.getElem?_tail]
      exact hline (k + 1) (by omega)
    obtain ⟨u, hrun, hu⟩ := hheld.run n hfurther
    obtain ⟨hsck, hmosi, hq⟩ := hheld.same_ports hu
    exact ⟨_, u, step_of_rst hr, hrun, hsck, hmosi, hq, hu.qOutputEnable_eq, hu.sck, hu.mosi, hu.qout⟩

end Sys2Proof.Machine
end

section
/-! PROOFS. 40_sequencer_uops.md R120 to R123: any command as a whole, and what each of them leaves behind. -/

namespace Sys2Proof.Machine

/-! ### A whole command -/

/-- R97: a command is decoded from its own word. -/
theorem decode_commandWord {i : Instr} (hi : isMicroOp i = false) : decode (.cmd (commandWord i)) = .ok i := by
  have hw : encode i = .cmd (commandWord i) := by
    cases i with
    | cfgfmt | cfgfreq | xfer | qwr | qrd => rfl
    | _ => simp [isMicroOp] at hi
  rw [← hw]
  exact decodeUndoesEncode i

/-- What a whole command, presented first on the port, makes of the engine. -/
def afterCommand (i : Instr) (op : Op) (s : State) : State :=
  complete (tick (plays (begun i op (popHost (tick s))).uprog (begun i op (popHost (tick s)))))

section
variable (i : Instr) (s : State)

theorem latchOperands_trace : (latchOperands i s).trace = s.trace := by cases i <;> rfl
theorem latchOperands_host : (latchOperands i s).host = s.host := by cases i <;> rfl
theorem latchOperands_rstLine : (latchOperands i s).rstLine = s.rstLine := by cases i <;> rfl
theorem latchOperands_faultCode : (latchOperands i s).faultCode = s.faultCode := by cases i <;> rfl
theorem latchOperands_pins : (latchOperands i s).pins = s.pins := by cases i <;> rfl

/-- R26, R46: only the configuration commands touch the configuration. -/
theorem latchOperands_configured {op : Op} (hop : commandOp i = some op) (ht : op.isTransfer = true) :
    (latchOperands i s).configured = s.configured := by
  cases i with
  | cfgfmt | cfgfreq => cases hop; simp [Op.isTransfer] at ht
  | _ => rfl

end

section
variable {i : Instr} {op : Op} {s : State} {rest : List CmdWord}

theorem begun_seqOp : (begun i op s).seqOp = op := rfl

theorem begun_trace : (begun i op s).trace = .accept (commandWord i) :: s.trace := by
  simp [begun, latchOperands_trace]

theorem isMicroOp_of_commandOp (hop : commandOp i = some op) : isMicroOp i = false := by
  simpa [hop] using isSome_commandOp i

theorem afterCommand_host : (afterCommand i op s).host = s.host.tail := by
  simp [afterCommand, plays_host, begun, latchOperands_host]

theorem afterCommand_faultCode : (afterCommand i op s).faultCode = s.faultCode := by
  simp [afterCommand, plays_faultCode, begun, latchOperands_faultCode]

theorem afterCommand_pins : (afterCommand i op s).pins = s.pins := by
  simp [afterCommand, plays_pins, begun, latchOperands_pins]

theorem afterCommand_noReset (hr : s.noReset) : (afterCommand i op s).noReset := by
  have hbegun : (begun i op (popHost (tick s))).noReset :=
    noReset_of_tail hr (by simp [begun, latchOperands_rstLine])
  exact noReset_of_tail (noReset_plays _ _ hbegun) rfl

theorem afterCommand_configured (hop : commandOp i = some op) (ht : op.isTransfer = true) :
    (afterCommand i op s).configured = s.configured := by
  have hlatched := latchOperands_configured i (popHost (tick s)) hop ht
  simp only [State.configured, afterCommand, complete_fmtValid, complete_freqValid, tick_fmtValid, tick_freqValid,
    plays_fmtValid, plays_freqValid]
  exact hlatched

/-- R77, R134: the events of a whole command are `Accept`, its micro-ops in order, and `Done`, with `RX` if it returns a
byte. -/
theorem afterCommand_trace : ∃ es,
    (afterCommand i op s).trace =
      .done (if op.returnsByte then some (afterCommand i op s).rx else none) ::
        es ++ .accept (commandWord i) :: s.trace ∧
    es.reverse.map Event.microOp = (uprog op (afterCommand i op s).cfgMode (afterCommand i op s).tx).map some := by
  obtain ⟨es, htrace, hprog⟩ :=
    plays_trace (begun i op (popHost (tick s))).uprog (begun i op (popHost (tick s)))
  refine ⟨es, ?_, ?_⟩
  · rw [begun_trace] at htrace
    simp [afterCommand, htrace, plays_seqOp, begun_seqOp]
  · rw [hprog]
    simp only [afterCommand, complete_cfgMode, complete_tx, tick_cfgMode, tick_tx, plays_cfgMode, plays_tx]
    rfl

section
variable (hs : s.seqState = .idle) (hr : s.noReset) (hc : PassesChecks i op s) (hh : s.host = commandWord i :: rest)
include hs hr hc hh

/-- R121: the accept step of a presented command that passes its checks. -/
theorem step_of_presented_command : step s = .next (begun i op (popHost (tick s))) := by
  have hidle : (popHost (tick s)).seqState = .idle := hs
  have hchecks : PassesChecks i op (popHost (tick s)) := ⟨hc.op_eq, hc.wellFormed, hc.configured, hc.not_refused⟩
  rw [step_of_presented hs hr hh (decode_commandWord (isMicroOp_of_commandOp hc.op_eq)),
    exec_of_passesChecks hidle hchecks]

/-- R120 to R123: a presented command that passes its checks completes after its accept step, one step for each micro-op
and the completion step. -/
theorem run_command : Host.Core.run core (op.microOps + 2) s = .next (afterCommand i op s) :=
  run_accepted (step_of_presented_command hs hr hc hh) rfl rfl
    (noReset_of_tail hr (by simp [begun, latchOperands_rstLine]))

end

end

/-- Settles O51: the run of the command ends in `afterCommand`. -/
theorem commandRunsToCompletion : Obligations.CommandRunsToCompletion := by
  intro s i op rest hinv hs hr hpads hop hwf hconf hh
  obtain ⟨es, htrace, hprog⟩ := afterCommand_trace (i := i) (op := op) (s := s)
  refine ⟨afterCommand i op s, es, run_command hs hr ⟨hop, hwf, hconf, hpads⟩ hh, rfl, ?host, ?fault, htrace, hprog⟩
  case host => rw [afterCommand_host, hh, List.tail_cons]
  case fault => rw [afterCommand_faultCode, faultCode_of_not_faulted hinv (by simp [hs])]

/-! ### What `CFGFREQ` leaves behind -/

/-- Settles O59: the micro-program of `CFGFREQ` is empty, so its completion follows its accept step. -/
theorem configureFrequencyTouchesNoPin : Obligations.ConfigureFrequencyTouchesNoPin := by
  intro s hz rest hs hr hz0 hh
  have hchecks : PassesChecks (.cfgfreq hz) .cfgfreq s := ⟨rfl, bne_iff_ne.mpr hz0, nofun, nofun⟩
  refine Eq.trans (run_command hs hr hchecks hh) ?_
  have hlow : (begun (.cfgfreq hz) .cfgfreq (popHost (tick s))).rstNow = false :=
    rstNow_of_noReset (noReset_of_tail hr rfl)
  have hempty : afterCommand (.cfgfreq hz) .cfgfreq s =
      complete (tick (begun (.cfgfreq hz) .cfgfreq (popHost (tick s)))) := rfl
  have hline : s.rstLine.drop 2 = s.rstLine.tail.tail := by simp [← List.drop_one]
  rw [hempty, tick_of_low hlow, hline, hs, ← Bool.or_false s.quadRun,
    popHost_tick_of_low (rstNow_of_noReset hr) hh]
  rfl

/-! ### What `XFER` leaves behind -/

section
variable (mode : BitVec 2) (tx : Byte) (is : List (BitVec 3)) (s : State)

theorem plays_bits_qdir : (plays (is.flatMap (bitprog mode tx)) s).qdir = s.qdir := by
  induction is generalizing s with
  | nil => rfl
  | cons i is ih => rw [List.flatMap_cons, plays_append, ih, plays_bitprog_qdir]

theorem plays_bits_qout : (plays (is.flatMap (bitprog mode tx)) s).qout = s.qout := by
  induction is generalizing s with
  | nil => rfl
  | cons i is ih => rw [List.flatMap_cons, plays_append, ih, plays_bitprog_qout]

/-- R126: the last bit played is the one that stays on `MOSI`. -/
theorem plays_bits_mosi (i : BitVec 3) :
    (plays ((is ++ [i]).flatMap (bitprog mode tx)) s).mosi = .driven (bitAt tx i.toNat) := by
  rw [List.flatMap_append, plays_append, List.flatMap_singleton, plays_bitprog_mosi]

end

section
variable (v : Byte) (s : State)

theorem afterXfer_mosi : (afterXfer v s).mosi = .driven (bitAt v 0) :=
  plays_bits_mosi s.cfgMode v (bitOrder.take 7) (acceptedXfer v s) 0

/-- R160: a transfer leaves the quad path, the configuration, the fault record and the pins as they were. -/
theorem afterXfer_frame :
    (afterXfer v s).qdir = s.qdir ∧ (afterXfer v s).qout = s.qout ∧ (afterXfer v s).cfgMode = s.cfgMode ∧
    (afterXfer v s).cfgHz = s.cfgHz ∧ (afterXfer v s).fmtValid = s.fmtValid ∧
    (afterXfer v s).freqValid = s.freqValid ∧ (afterXfer v s).faultCode = s.faultCode ∧
    (afterXfer v s).faultCmd = s.faultCmd ∧ (afterXfer v s).pins = s.pins := by
  simp [afterXfer, acceptedXfer, plays_bits_qdir, plays_bits_qout, plays_cfgMode, plays_cfgHz, plays_fmtValid,
    plays_freqValid, plays_faultCode, plays_faultCmd, plays_pins]

end

/-- Settles O54: the last of the eight bits stays on `MOSI`, the clock is back at the idle level, and nothing else is
written but `TX` and `RX`. -/
theorem transferLeavesBehind : Obligations.TransferLeavesBehind := by
  intro s v rest hinv hs hr ha hc hh
  have hsck : s.sck = .driven (cpol s.cfgMode) := sck_of_idle_configured hinv hs hc
  have htx : (afterXfer v s).tx = v := by simp [afterXfer, acceptedXfer, plays_tx]
  have hdone : (afterXfer v s).trace.head? = some (.done (some (afterXfer v s).rx)) := by
    simp [afterXfer, acceptedXfer, plays_seqOp, Op.returnsByte]
  exact ⟨_, run_xfer hs hr ha hc hh, afterXfer_mosi v s, htx, hdone, (afterXfer_sck hsck).trans hsck.symm,
    afterXfer_frame v s⟩

/-! ### What `QWR` leaves behind -/

section
variable (v : Byte) (s : State)

/-- R170: a quad write touches the clock, the lanes and `TX` only. -/
theorem afterQwr_frame :
    (afterQwr v s).rx = s.rx ∧ (afterQwr v s).mosi = s.mosi ∧ (afterQwr v s).cfgMode = s.cfgMode ∧
    (afterQwr v s).cfgHz = s.cfgHz ∧ (afterQwr v s).fmtValid = s.fmtValid ∧ (afterQwr v s).freqValid = s.freqValid ∧
    (afterQwr v s).env = s.env ∧ (afterQwr v s).faultCode = s.faultCode ∧ (afterQwr v s).pins = s.pins := by
  simp [afterQwr, beforeLowerNibble, beforeUpperNibble, acceptedQwr, plays, nibbleOut]

theorem afterQwr_tx : (afterQwr v s).tx = v := by
  simp [afterQwr, beforeLowerNibble, beforeUpperNibble, acceptedQwr, plays_tx]

/-- R101: a quad write completes without a byte. -/
theorem afterQwr_done : (afterQwr v s).trace.head? = some (.done none) := by
  simp [afterQwr, beforeLowerNibble, beforeUpperNibble, acceptedQwr, plays_seqOp, Op.returnsByte]

end

/-- Settles O56: the completion step leaves the lower nibble on the lanes and the clock at idle. -/
theorem quadWriteLeavesBehind : Obligations.QuadWriteLeavesBehind := by
  intro s v rest hinv hs hr hc hh
  have hsck : s.sck = .driven (cpol s.cfgMode) := sck_of_idle_configured hinv hs hc
  have hlanes : PresentsNibble (lowerNibble v) false (afterQwr v s) := afterQwr_presents hsck
  obtain ⟨hrx, hmosi, hmode, hframe⟩ := afterQwr_frame v s
  have hclock : (afterQwr v s).sck = s.sck := by rw [hlanes.sck_at_idle, hmode, hsck]
  exact ⟨_, run_qwr hs hr hc hh, afterQwr_done v s, afterQwr_tx v s, hlanes.qdir, hlanes.qout, hclock, hrx, hmosi,
    hmode, hframe⟩

end Sys2Proof.Machine
end

section
/-! PROOFS. 44_framer_interface.md R190 to R197: the words of the framer's programs, and runs of the reading ones. -/

namespace Sys2Proof.Machine

/-! ### Lines that present commands -/

/-- A part of a host program that presents commands only: no chip-select line stands in it. -/
def CommandsOnly (body : List HostLine) : Prop := ∀ l ∈ body, l.command.isSome = true

theorem commandsOnly_sends (cmds : List Instr) : CommandsOnly (sends cmds) := by
  simp [CommandsOnly, sends, HostLine.command]

theorem commandsOnly_replicate_receive (n : Nat) (c : Instr) : CommandsOnly (List.replicate n (.receive c)) := by
  simp +contextual [CommandsOnly, HostLine.command]

theorem commandsOnly_append {p q : List HostLine} (hp : CommandsOnly p) (hq : CommandsOnly q) : CommandsOnly (p ++ q) :=
  List.forall_mem_append.mpr ⟨hp, hq⟩

/-- R192, R193: a program that discards every response. -/
def writing (cmds : List Instr) : List HostLine := transaction (sends cmds)

/-- R194 to R196: a program that discards the responses of `cmds` and then keeps those of `n` commands `c`. -/
def reading (cmds : List Instr) (n : Nat) (c : Instr) : List HostLine :=
  transaction (sends cmds ++ List.replicate n (.receive c))

section
variable (cmds : List Instr) (n : Nat) (c : Instr)

/-- R191: a transaction is one chip-select around nothing but commands. -/
def IsTransaction (p : List HostLine) : Prop :=
  ∃ body, p = .csAssert :: body ++ [.csDeassert] ∧ CommandsOnly body

theorem isTransaction_writing : IsTransaction (writing cmds) := ⟨_, rfl, commandsOnly_sends _⟩

theorem isTransaction_reading : IsTransaction (reading cmds n c) :=
  ⟨_, rfl, commandsOnly_append (commandsOnly_sends _) (commandsOnly_replicate_receive _ _)⟩

theorem hostWords_writing : hostWords (writing cmds) = cmds.map commandWord := by
  rw [writing, hostWords_transaction, hostWords_sends]

theorem hostWords_reading :
    hostWords (reading cmds n c) = cmds.map commandWord ++ List.replicate n (commandWord c) := by
  rw [reading, hostWords_transaction, hostWords_append, hostWords_sends, hostWords_replicate_receive]

theorem received_writing (rs : List (Option Byte)) : received (writing cmds) rs = [] := by
  rw [writing, received_transaction, received_sends_append]
  rfl

/-- R194 to R196: a reading program keeps the responses that follow the discarded ones. -/
theorem received_reading {pre : List (Option Byte)} {ds : List Byte} (hpre : pre.length = cmds.length)
    (hds : ds.length = n) : received (reading cmds n c) (pre ++ ds.map some) = ds := by
  rw [reading, received_transaction, List.append_assoc, received_sends_append, ← hpre, List.drop_left, ← hds,
    ← List.append_nil (ds.map some), received_replicate_receive_append]
  simp [received]

end

/-! ### Completions of a run -/

/-- Between `s` and `t` the trace has grown by events whose completions are `rs`, oldest first. -/
def Completes (s t : State) (rs : List (Option Byte)) : Prop :=
  ∃ new, t.trace = new ++ s.trace ∧ new.reverse.filterMap Event.completion = rs

section
variable {s t u : State} {rs qs : List (Option Byte)}

theorem Completes.refl (s : State) : Completes s s [] := ⟨[], rfl, rfl⟩

theorem Completes.trans (h : Completes s t rs) (h' : Completes t u qs) : Completes s u (rs ++ qs) := by
  obtain ⟨new, ht, hrs⟩ := h
  obtain ⟨new', hu, hqs⟩ := h'
  refine ⟨new' ++ new, by rw [hu, ht, List.append_assoc], ?_⟩
  rw [List.reverse_append, List.filterMap_append, hrs, hqs]

theorem Completes.completionsSince_eq (h : Completes s t rs) : completionsSince s t = rs := by
  obtain ⟨new, ht, hrs⟩ := h
  rw [completionsSince_of_trace ht, hrs]

end

/-- R134: the event of a micro-op completes nothing. -/
theorem completions_of_microOps {es : List Event} {us : List Instr} (h : es.map Event.microOp = us.map some) :
    es.filterMap Event.completion = [] := by
  rw [List.filterMap_eq_nil_iff]
  intro e he
  have hmem : e.microOp ∈ us.map some := h ▸ List.mem_map_of_mem he
  cases e with
  | uop => rfl
  | accept | done | fault => simp [Event.microOp] at hmem

/-- R77: a whole command completes once. -/
theorem completes_afterCommand (i : Instr) (op : Op) (s : State) :
    Completes s (afterCommand i op s) [if op.returnsByte then some (afterCommand i op s).rx else none] := by
  obtain ⟨es, htrace, hprog⟩ := afterCommand_trace (i := i) (op := op) (s := s)
  refine ⟨_, htrace.trans (List.append_assoc (_ :: es) [.accept (commandWord i)] s.trace).symm, ?_⟩
  simp [List.filterMap_cons, completions_of_microOps hprog, Event.completion]

/-! ### Runs of transfers -/

/-- R105: what a host program of transfers needs of the engine, and finds again after each of them. -/
structure ReadyForTransfers (s : State) : Prop where
  inv : Inv s
  idle : s.seqState = .idle
  noReset : s.noReset
  configured : s.configured = true
  separatePads : s.separatePads

section
variable {i : Instr} {op : Op} {s : State} {rest : List CmdWord} (ht : op.isTransfer = true) (h : ReadyForTransfers s)
include ht h

theorem run_transfer (hop : commandOp i = some op) (hh : s.host = commandWord i :: rest) :
    Host.Core.run core (op.microOps + 2) s = .next (afterCommand i op s) ∧ ReadyForTransfers (afterCommand i op s) := by
  have hwf : i.wellFormed = true := by
    cases i with
    | cfgfmt | cfgfreq => cases hop; simp [Op.isTransfer] at ht
    | _ => rfl
  have hpads : s.interleaved = false := Bool.and_eq_false_iff.mpr (.inl h.separatePads)
  have hrun := run_command h.idle h.noReset ⟨hop, hwf, fun _ => h.configured, fun _ => hpads⟩ hh
  refine ⟨hrun, run_keeps soundnessIsKeptByEveryStep h.inv hrun, rfl, afterCommand_noReset h.noReset, ?_, ?_⟩
  · rw [afterCommand_configured hop ht, h.configured]
  · rw [State.separatePads, afterCommand_pins]
    exact h.separatePads

/-- R192 to R196: a ready engine runs any number of transfers of one kind, each to one completion. -/
theorem run_transfers (cmds : List Instr) (hcmds : ∀ i ∈ cmds, commandOp i = some op)
    (hh : s.host = cmds.map commandWord ++ rest) :
    ∃ t rs, Host.Core.run core ((op.microOps + 2) * cmds.length) s = .next t ∧ ReadyForTransfers t ∧ t.host = rest ∧
      Completes s t rs ∧ rs.length = cmds.length ∧ ∀ r ∈ rs, r.isSome = op.returnsByte := by
  induction cmds generalizing s with
  | nil => exact ⟨s, [], rfl, h, hh, .refl s, rfl, List.forall_mem_nil _⟩
  | cons i cmds ih =>
    obtain ⟨hi, hcmds⟩ := List.forall_mem_cons.mp hcmds
    obtain ⟨hrun, hready⟩ := run_transfer ht h hi hh
    have hhost : (afterCommand i op s).host = cmds.map commandWord ++ rest := by rw [afterCommand_host, hh]; rfl
    obtain ⟨t, rs, hruns, ht', hrest, hcomp, hlen, hsome⟩ := ih hready hcmds hhost
    refine ⟨t, _ :: rs, ?_, ht', hrest, (completes_afterCommand i op s).trans hcomp, by simp [hlen],
      List.forall_mem_cons.mpr ⟨?_, hsome⟩⟩
    · rw [List.length_cons, Nat.mul_succ, Nat.add_comm, run_add hrun, hruns]
    · cases op.returnsByte <;> rfl

/-- R101: of transfers that return a byte each completion carries one. -/
theorem run_returning_transfers (hret : op.returnsByte = true) (cmds : List Instr)
    (hcmds : ∀ i ∈ cmds, commandOp i = some op) (hh : s.host = cmds.map commandWord ++ rest) :
    ∃ (t : State) (ds : List Byte), Host.Core.run core ((op.microOps + 2) * cmds.length) s = .next t ∧
      ReadyForTransfers t ∧ t.host = rest ∧ Completes s t (ds.map some) ∧ ds.length = cmds.length := by
  obtain ⟨t, rs, hrun, hready, hrest, hcomp, hlen, hsome⟩ := run_transfers ht h cmds hcmds hh
  rw [hret] at hsome
  have hbytes : rs ∈ Set.range (List.map (some : Byte → Option Byte)) := by
    rw [Set.range_list_map]
    intro r hr
    obtain ⟨d, rfl⟩ := Option.isSome_iff_exists.mp (hsome r hr)
    exact ⟨d, rfl⟩
  obtain ⟨ds, rfl⟩ := hbytes
  exact ⟨t, ds, hrun, hready, hrest, hcomp, by simpa using hlen⟩

/-- R101: of transfers that return nothing no completion carries a byte. -/
theorem run_silent_transfers (hret : op.returnsByte = false) (cmds : List Instr)
    (hcmds : ∀ i ∈ cmds, commandOp i = some op) (hh : s.host = cmds.map commandWord ++ rest) :
    ∃ t, Host.Core.run core ((op.microOps + 2) * cmds.length) s = .next t ∧
      ReadyForTransfers t ∧ t.host = rest ∧ Completes s t (List.replicate cmds.length none) := by
  obtain ⟨t, rs, hrun, hready, hrest, hcomp, hlen, hsome⟩ := run_transfers ht h cmds hcmds hh
  have hnone : rs = List.replicate cmds.length none :=
    List.eq_replicate_iff.mpr ⟨hlen, fun r hr => by simpa [hret] using hsome r hr⟩
  exact ⟨t, hrun, hready, hrest, hnone ▸ hcomp⟩

end

/-! ### The reading programs on the engine -/

section
variable {s : State} {rest : List CmdWord} (h : ReadyForTransfers s)
include h

/-- R194, R195: the engine runs a single-wire reading program to one response for each of its commands. -/
theorem run_xfer_reading (vs : List Byte) (n : Nat) (dummy : Byte)
    (hh : s.host = hostWords (reading (vs.map .xfer) n (.xfer dummy)) ++ rest) :
    ∃ (t : State) (rs ds : List Byte), Host.Core.run core (50 * vs.length + 50 * n) s = .next t ∧ t.seqState = .idle ∧
      t.host = rest ∧ rs.length = vs.length ∧ ds.length = n ∧ completionsSince s t = rs.map some ++ ds.map some ∧
      programResult (reading (vs.map .xfer) n (.xfer dummy)) s t = ds := by
  have hcmds : ∀ i ∈ vs.map Instr.xfer ++ List.replicate n (.xfer dummy), commandOp i = some .xfer := by
    simp [or_imp, forall_and, commandOp]
  rw [hostWords_reading, ← List.map_replicate, ← List.map_append] at hh
  obtain ⟨t, ds, hrun, hready, hrest, hcomp, hlen⟩ := run_returning_transfers rfl h rfl _ hcmds hh
  simp only [List.length_append, List.length_map, List.length_replicate] at hrun hlen
  have hsplit : completionsSince s t = (ds.take vs.length).map some ++ (ds.drop vs.length).map some := by
    rw [hcomp.completionsSince_eq, ← List.map_append, List.take_append_drop]
  have htake : (ds.take vs.length).length = vs.length := by simp [hlen]
  have hdrop : (ds.drop vs.length).length = n := by simp [hlen]
  refine ⟨t, _, _, ?_, hready.idle, hrest, htake, hdrop, hsplit, ?_⟩
  · rw [← Nat.mul_add]
    exact hrun
  · rw [programResult, hsplit, received_reading _ _ _ (by simp [hlen]) hdrop]

/-- R196: the engine runs a quad reading program: its writes return nothing, each of its `k + n` reads a byte. -/
theorem run_quad_reading (vs : List Byte) (k n : Nat)
    (hh : s.host = hostWords (reading (vs.map .qwr ++ List.replicate k .qrd) n .qrd) ++ rest) :
    ∃ (t : State) (xs ds : List Byte), Host.Core.run core (13 * vs.length + 13 * (k + n)) s = .next t ∧
      t.seqState = .idle ∧ t.host = rest ∧ xs.length = k ∧ ds.length = n ∧
      completionsSince s t = List.replicate vs.length none ++ xs.map some ++ ds.map some ∧
      programResult (reading (vs.map .qwr ++ List.replicate k .qrd) n .qrd) s t = ds := by
  have hwrites : ∀ i ∈ vs.map Instr.qwr, commandOp i = some .qwr := by simp [commandOp]
  have hreads : ∀ i ∈ List.replicate (k + n) Instr.qrd, commandOp i = some .qrd := by simp [commandOp]
  have hhost : s.host =
      (vs.map Instr.qwr).map commandWord ++ ((List.replicate (k + n) Instr.qrd).map commandWord ++ rest) := by
    rw [hh, hostWords_reading]
    simp only [List.map_append, List.map_replicate, List.append_assoc, List.replicate_add]
  obtain ⟨t, hrun, hready, hrest, hcomp⟩ := run_silent_transfers rfl h rfl _ hwrites hhost
  obtain ⟨u, ds, hrun', hready', hrest', hcomp', hlen⟩ := run_returning_transfers rfl hready rfl _ hreads hrest
  simp only [List.length_map, List.length_replicate] at hrun hrun' hcomp hlen
  have hsplit : completionsSince s u =
      List.replicate vs.length none ++ (ds.take k).map some ++ (ds.drop k).map some := by
    rw [(hcomp.trans hcomp').completionsSince_eq, List.append_assoc, ← List.map_append, List.take_append_drop]
  have htake : (ds.take k).length = k := by simp [hlen]
  have hdrop : (ds.drop k).length = n := by simp [hlen]
  refine ⟨u, _, _, ?_, hready'.idle, hrest', htake, hdrop, hsplit, ?_⟩
  · exact (run_add hrun _).trans hrun'
  · rw [programResult, hsplit, received_reading _ _ _ (by simp [hlen]) hdrop]

end

/-! ### Which program is which -/

theorem wrmr_eq_writing (m : Byte) : wrmr m = writing [.xfer 0x01, .xfer m] := rfl

theorem write_eq_writing (a : BitVec 16) (data : List Byte) :
    write a data = writing ([0x02, addrHigh a, addrLow a] ++ data |>.map .xfer) := by
  rw [List.map_append]
  rfl

theorem qwrite_eq_writing (a : BitVec 16) (data : List Byte) :
    qwrite a data = writing ([0x02, addrHigh a, addrLow a] ++ data |>.map .qwr) := by
  rw [List.map_append]
  rfl

theorem qwrmr_eq_writing (m : Byte) : qwrmr m = writing [.qwr 0x01, .qwr m] := rfl

theorem setChipMode_eq_writing (mode : ChipMode) : setChipMode mode = writing [.xfer 0x01, .xfer mode.value] := rfl

theorem setChipIo_eq_writing (via : SendPrimitive) (io : ChipIo) : setChipIo via io = writing [via.send io.value] := rfl

theorem rdmr_eq_reading (dummy : Byte) : rdmr dummy = reading ([0x05].map .xfer) 1 (.xfer dummy) := rfl

theorem read_eq_reading (a : BitVec 16) (n : Nat) (dummy : Byte) :
    read a n dummy = reading ([0x03, addrHigh a, addrLow a].map .xfer) n (.xfer dummy) := rfl

theorem qrdmr_eq_reading : qrdmr = reading ([0x05].map .qwr ++ List.replicate 0 .qrd) 1 .qrd := rfl

theorem qread_eq_reading (a : BitVec 16) (n : Nat) :
    qread a n = reading ([0x03, addrHigh a, addrLow a].map .qwr ++ List.replicate 1 .qrd) n .qrd := rfl

/-- R193: the command words of `WRITE`. -/
theorem hostWords_write (a : BitVec 16) (data : List Byte) : hostWords (write a data) =
    commandWord (.xfer 0x02) :: commandWord (.xfer (addrHigh a)) :: commandWord (.xfer (addrLow a)) ::
      data.map (fun d => commandWord (.xfer d)) := by
  rw [write_eq_writing, hostWords_writing, List.map_map]
  rfl

/-- R196: the command words of `QWRITE`. -/
theorem hostWords_qwrite (a : BitVec 16) (data : List Byte) : hostWords (qwrite a data) =
    commandWord (.qwr 0x02) :: commandWord (.qwr (addrHigh a)) :: commandWord (.qwr (addrLow a)) ::
      data.map (fun d => commandWord (.qwr d)) := by
  rw [qwrite_eq_writing, hostWords_writing, List.map_map]
  rfl

/-- Settles O60: every expansion is a writing or a reading program, so its words, its one transaction and what it keeps
are those of such a program; and a reading program runs on the engine command by command. -/
theorem framerWords : Obligations.FramerWords := by
  intro a data n m dummy
  refine ⟨?words, fun mode via io => ?transactions, fun rs => ?kept, fun s rest hinv hs hr hc hpads => ?runs⟩
  case words =>
    exact ⟨rfl, hostWords_write a data, rfl, hostWords_reading _ _ _, hostWords_qwrite a data, hostWords_reading _ _ _,
      rfl, rfl, rfl, rfl, rfl, rfl, rfl, rfl, rfl, rfl, rfl⟩
  case transactions =>
    change ∀ p ∈ _, IsTransaction p
    simp only [wrmr_eq_writing, write_eq_writing, rdmr_eq_reading, read_eq_reading, qwrite_eq_writing,
      qread_eq_reading, qwrmr_eq_writing, qrdmr_eq_reading, setChipMode_eq_writing, setChipIo_eq_writing,
      List.forall_mem_cons, isTransaction_writing, isTransaction_reading, true_and]
    exact List.forall_mem_nil _
  case kept =>
    rw [wrmr_eq_writing, write_eq_writing, qwrite_eq_writing, qwrmr_eq_writing]
    exact ⟨received_writing _ _, received_writing _ _, received_writing _ _, received_writing _ _⟩
  case runs =>
    have hready : ReadyForTransfers s := ⟨hinv, hs, hr, hc, hpads⟩
    rw [rdmr_eq_reading, read_eq_reading, qrdmr_eq_reading, qread_eq_reading]
    refine ⟨fun hh => ?rdmr, fun hh => ?read, fun hh => ?qrdmr, fun hh => ?qread⟩
    case rdmr =>
      obtain ⟨t, rs, ds, hrun, hidle, hrest, hrs, hds, hcomp, hres⟩ := run_xfer_reading hready _ _ _ hh
      obtain ⟨r, rfl⟩ := List.length_eq_one_iff.mp hrs
      obtain ⟨v, rfl⟩ := List.length_eq_one_iff.mp hds
      exact ⟨t, r, v, hrun, hidle, hrest, hcomp, hres⟩
    case read =>
      obtain ⟨t, rs, ds, hrun, hidle, hrest, hrs, hds, hcomp, hres⟩ := run_xfer_reading hready _ _ _ hh
      obtain ⟨r0, r1, r2, rfl⟩ := List.length_eq_three.mp hrs
      exact ⟨t, r0, r1, r2, ds, hrun, hidle, hrest, hds, hcomp, hres⟩
    case qrdmr =>
      obtain ⟨t, xs, ds, hrun, hidle, hrest, hxs, hds, hcomp, hres⟩ := run_quad_reading hready _ _ _ hh
      obtain rfl := List.length_eq_zero_iff.mp hxs
      obtain ⟨v, rfl⟩ := List.length_eq_one_iff.mp hds
      exact ⟨t, v, hrun, hidle, hrest, hcomp, hres⟩
    case qread =>
      obtain ⟨t, xs, ds, hrun, hidle, hrest, hxs, hds, hcomp, hres⟩ := run_quad_reading hready _ _ _ hh
      obtain ⟨x, rfl⟩ := List.length_eq_one_iff.mp hxs
      have hsteps : 13 * 3 + 13 * (1 + n) = 52 + 13 * n := by omega
      exact ⟨t, x, ds, hsteps ▸ hrun, hidle, hrest, hds, hcomp, hres⟩

end Sys2Proof.Machine
end
